-- ==== Sys2Proof/Word.lean ====
section
/-! DEFINITION. The words of the machine: bytes and addresses of the Register Bank (20_memory R41) and the
128-bit command word (30_encoding R61). -/

namespace Sys2Proof

/-- A location of the Register Bank is 8 bits wide (20_memory R41). -/
abbrev Byte := BitVec 8

/-- A Register Bank address, 0..255 (20_memory R41). -/
abbrev Addr := BitVec 8

/-- The command word, presented whole (30_encoding R61). -/
abbrev CmdWord := BitVec 128

end Sys2Proof
end

