-- ==== Sys2Proof/Config.lean ====
section
/-! DEFINITION. The parameters of 00_scope R6. They are arguments of the model: State holds one `Config`
(log 2), so a statement about every state is a statement about every value of every parameter. -/

namespace Sys2Proof

/-- The two readings of the low bits of the R-divider byte (43_rdiv R128, D15). -/
inductive RdivLowBits where
  | msLayout
  | zero
deriving DecidableEq, Repr

/-- The parameters of 00_scope R6 that are not fixed numbers, in the table's ranges (R6, D23). -/
structure Config where
  /-- `XTAL_HZ` -/
  xtalHz : BitVec 32
  /-- `BUS_ADDR` -/
  busAddr : BitVec 7
  /-- `CLK_CTRL_ADDR(0)` -/
  clkCtrlAddr0 : Addr
  /-- `CLK_CTRL_ADDR(1)` -/
  clkCtrlAddr1 : Addr
  /-- `CLK_CTRL_ADDR(2)` -/
  clkCtrlAddr2 : Addr
  /-- `CLK_CTRL_BASE` -/
  clkCtrlBase : Byte
  /-- `PLL_RESET_ADDR` -/
  pllResetAddr : Addr
  /-- `PLL_RESET_VALUE` -/
  pllResetValue : Byte
  /-- `OE_ADDR` -/
  oeAddr : Addr
  /-- `RDIV_LOW_BITS` -/
  rdivLowBits : RdivLowBits
deriving DecidableEq, Repr

/-- "`cfg.CLK_CTRL_BASE` must have bits 6 and 5 clear" (30_encoding R69, D17). -/
def Config.legal (c : Config) : Bool :=
  c.clkCtrlBase &&& 0x60#8 == 0#8

/-- The defaults of 00_scope R6, which every test vector of 95_test_vectors uses.
PRESUMED (log 2, unsafe): the addresses and values the spec marks as general knowledge.
DESIGN CHOICE (log 2, unsafe): `BUS_ADDR` 0; R6 gives it no default, and it affects no value written. -/
def Config.default : Config where
  xtalHz := 25000000#32
  busAddr := 0#7
  clkCtrlAddr0 := 16#8
  clkCtrlAddr1 := 17#8
  clkCtrlAddr2 := 18#8
  clkCtrlBase := 0x0F#8
  pllResetAddr := 177#8
  pllResetValue := 0xA0#8
  oeAddr := 3#8
  rdivLowBits := .msLayout

end Sys2Proof
end

