-- ==== Sys2Proof/Syntax.lean ====
section
/-! DEFINITION. The commands (30_encoding R63, opcode_table.json), one constructor per row of the table. The
operands have exactly the widths of the command word's fields (30_encoding R62, 00_scope R7), so every term is
encodable; the operand values that are encodable and illegal are the business of `Instr.wellFormed` and of
Validate. -/

namespace Sys2Proof

/-- The two PLLs (10_state R24). -/
inductive Pll where
  | a
  | b
deriving DecidableEq, Repr

/-- The three output channels (00_scope R6 `N_OUT`). -/
inductive Channel where
  | ch0
  | ch1
  | ch2
deriving DecidableEq, Repr

/-- The opcodes in use (30_encoding R63). -/
inductive Opcode where
  | setupPll
  | setupMs
  | setupRdiv
  | setFreq
  | enableOutputs
deriving DecidableEq, Repr

/-- The five commands of SRCMD version 1. -/
inductive Instr where
  /-- SETUP_PLL `p, mult, num, denom` (41_pll R106) -/
  | setupPll (p : Pll) (mult : BitVec 32) (num denom : BitVec 20)
  /-- SETUP_MS `ch, p, div, num, denom` (42_multisynth R116) -/
  | setupMs (ch : BitVec 2) (p : Pll) (div : BitVec 32) (num denom : BitVec 20)
  /-- SETUP_RDIV `ch, n` (43_rdiv R126) -/
  | setupRdiv (ch : BitVec 2) (n : BitVec 3)
  /-- SET_FREQ `ch, p, hz` (44_resolver R133) -/
  | setFreq (ch : BitVec 2) (p : Pll) (f : BitVec 32)
  /-- ENABLE_OUTPUTS `en` (45_output_enable R151) -/
  | enableOutputs (en : Bool)
deriving DecidableEq, Repr

/-- The opcode of a command. -/
def Instr.opcode : Instr → Opcode
  | .setupPll _ _ _ _ => .setupPll
  | .setupMs _ _ _ _ _ => .setupMs
  | .setupRdiv _ _ => .setupRdiv
  | .setFreq _ _ _ => .setFreq
  | .enableOutputs _ => .enableOutputs

end Sys2Proof
end

