-- ==== Sys2Proof/WellFormed.lean ====
section
/-! DEFINITION. Well-formed commands: those whose operand values are legal, not only encodable (60_exceptions
R158, R159). The meanings do not read this file: an ill-formed command still runs, and completes with the fault
that Validate names. -/

namespace Sys2Proof

/-- A channel operand is legal when it is 0..2 (60_exceptions R158 (a)). -/
def channelLegal (ch : BitVec 2) : Bool := ch != 3#2

/-- A denominator is legal when it is at least 1 (60_exceptions R158 (b)). -/
def denomLegal (denom : BitVec 20) : Bool := denom != 0#20

/-- A target frequency is legal when it is at least 1 Hz (60_exceptions R159). -/
def freqLegal (f : BitVec 32) : Bool := f != 0#32

/-- The operands Validate lets pass (60_exceptions R162). -/
def Instr.wellFormed : Instr → Bool
  | .setupPll _ _ _ denom => denomLegal denom
  | .setupMs ch _ _ _ denom => channelLegal ch && denomLegal denom
  | .setupRdiv ch _ => channelLegal ch
  | .setFreq ch _ f => channelLegal ch && freqLegal f
  | .enableOutputs _ => true

end Sys2Proof
end

