-- ==== Sys2Proof/Decode.lean ====
section
/-! DEFINITION. The command word (30_encoding R61 to R66): its fields, the total decoder of R65 over the match
and mask table of R64, and the encoder. -/

namespace Sys2Proof

/-- `OP`, bits 3:0 (30_encoding R62). -/
def fieldOp (w : CmdWord) : BitVec 4 := w.extractLsb' 0 4
/-- `CH`, bits 5:4. -/
def fieldCh (w : CmdWord) : BitVec 2 := w.extractLsb' 4 2
/-- `PLL`, bit 6. -/
def fieldPll (w : CmdWord) : BitVec 1 := w.extractLsb' 6 1
/-- `EN`, bit 7. -/
def fieldEn (w : CmdWord) : BitVec 1 := w.extractLsb' 7 1
/-- `RX`, bits 10:8. -/
def fieldRx (w : CmdWord) : BitVec 3 := w.extractLsb' 8 3
/-- Reserved bits 15:11. -/
def fieldLowReserved (w : CmdWord) : BitVec 5 := w.extractLsb' 11 5
/-- `ARG`, bits 47:16. -/
def fieldArg (w : CmdWord) : BitVec 32 := w.extractLsb' 16 32
/-- `NUM`, bits 67:48. -/
def fieldNum (w : CmdWord) : BitVec 20 := w.extractLsb' 48 20
/-- `DEN`, bits 87:68. -/
def fieldDen (w : CmdWord) : BitVec 20 := w.extractLsb' 68 20
/-- Reserved bits 127:88. -/
def fieldHighReserved (w : CmdWord) : BitVec 40 := w.extractLsb' 88 40

/-- The PLL selector: 0 = PLL A, 1 = PLL B (30_encoding R62). -/
def pllOfBit (x : BitVec 1) : Pll := if x = 1#1 then .b else .a

/-- The match column of 30_encoding R64. -/
def matchBits : Opcode → CmdWord
  | .setupPll => 0x1#128
  | .setupMs => 0x2#128
  | .setupRdiv => 0x3#128
  | .setFreq => 0x4#128
  | .enableOutputs => 0x5#128

/-- The mask column of 30_encoding R64. -/
def maskBits : Opcode → CmdWord
  | .setupPll => 0xFFFFFFFFFF000000000000000000FFBF#128
  | .setupMs => 0xFFFFFFFFFF000000000000000000FF8F#128
  | .setupRdiv => 0xFFFFFFFFFFFFFFFFFFFFFFFFFFFFF8CF#128
  | .setFreq => 0xFFFFFFFFFFFFFFFFFFFF00000000FF8F#128
  | .enableOutputs => 0xFFFFFFFFFFFFFFFFFFFFFFFFFFFFFF7F#128

/-- "A word `w` is the command of a row if and only if `(w & mask) = match`" (30_encoding R64). -/
def matchesRow (w : CmdWord) (o : Opcode) : Bool := w &&& maskBits o == matchBits o

/-- The rows of 30_encoding R64, in the table's order. -/
def rows : List Opcode := [.setupPll, .setupMs, .setupRdiv, .setFreq, .enableOutputs]

/-- The command a row's fields carry (30_encoding R65). -/
def readRow (w : CmdWord) : Opcode → Instr
  | .setupPll => .setupPll (pllOfBit (fieldPll w)) (fieldArg w) (fieldNum w) (fieldDen w)
  | .setupMs => .setupMs (fieldCh w) (pllOfBit (fieldPll w)) (fieldArg w) (fieldNum w) (fieldDen w)
  | .setupRdiv => .setupRdiv (fieldCh w) (fieldRx w)
  | .setFreq => .setFreq (fieldCh w) (pllOfBit (fieldPll w)) (fieldArg w)
  | .enableOutputs => .enableOutputs (fieldEn w == 1#1)

/-- The two ways a word is illegal (30_encoding R66). Both complete with `ILLEGAL_COMMAND`. -/
inductive Illegal where
  /-- `OP` is 0x0 or 0x6..0xF. -/
  | reservedOpcode
  /-- `OP` is in use, and a bit under the row's mask is nonzero. -/
  | nonzeroUnusedBit
deriving DecidableEq, Repr

/-- What the decoder answers (30_encoding R65). -/
inductive Decoded where
  | command (i : Instr)
  | illegal (why : Illegal)
deriving DecidableEq, Repr

/-- Is the opcode one of those in use, 0x1 to 0x5 (30_encoding R63)? -/
def opcodeInUse (op : BitVec 4) : Bool := 1 ≤ op.toNat && op.toNat ≤ 5

/-- `Decode` of 30_encoding R65, total on every 128-bit word: the first row that matches, else illegal. -/
def decode (w : CmdWord) : Decoded :=
  match rows.find? (matchesRow w) with
  | some o => .command (readRow w o)
  | none => .illegal (if opcodeInUse (fieldOp w) then .nonzeroUnusedBit else .reservedOpcode)

/-- A command word from its fields, the reserved ones 0 (30_encoding R62). -/
def cmdWord (op : BitVec 4) (ch : BitVec 2) (pll en : BitVec 1) (rx : BitVec 3) (arg : BitVec 32)
    (num den : BitVec 20) : CmdWord :=
  0#40 ++ den ++ num ++ arg ++ 0#5 ++ rx ++ en ++ pll ++ ch ++ op

/-- The bit of a PLL selector (30_encoding R62). -/
def Pll.bit : Pll → BitVec 1
  | .a => 0#1
  | .b => 1#1

/-- The word of a command (30_encoding R63, R64, R74). -/
def encode : Instr → CmdWord
  | .setupPll p mult num denom => cmdWord 0x1#4 0#2 p.bit 0#1 0#3 mult num denom
  | .setupMs ch p div num denom => cmdWord 0x2#4 ch p.bit 0#1 0#3 div num denom
  | .setupRdiv ch n => cmdWord 0x3#4 ch 0#1 0#1 n 0#32 0#20 0#20
  | .setFreq ch p f => cmdWord 0x4#4 ch p.bit 0#1 0#3 f 0#20 0#20
  | .enableOutputs en => cmdWord 0x5#4 0#2 0#1 (BitVec.ofBool en) 0#3 0#32 0#20 0#20

/-- The command word of a table row's number: its low `nbits` bits, every bit above them 0 (log 16). -/
def tableWord (nbits w : Nat) : CmdWord := BitVec.ofNat 128 (w % 2 ^ nbits)

/-- What the decoder reads from the word that the opcode table numbers `w`. -/
def decodeTableWord (nbits w : Nat) : Option Instr :=
  match decode (tableWord nbits w) with
  | .command i => some i
  | .illegal _ => none

end Sys2Proof
end

