-- ==== Sys2Proof/Machine/State.lean ====
section
/-! DEFINITION. The architectural state of 10_state R22, the write index of R25, the ports of the block, the
write log and the bank image of 20_memory R51, as plain data; the reasons a step can stop; the state after
reset (10_state R32, 70_reset R176). -/

namespace Sys2Proof.Machine

/-- No step of this machine ends in a fault: every fault of the spec is a completion, after which "control
returns to the host through the response" (60_exceptions R164), so it is a next state (log 11, safe). -/
inductive Fault
deriving DecidableEq, Repr

/-- The reasons a step has no meaning. -/
inductive Refusal where
  /-- The instruction has no meaning yet (raised by `exec` alone). Safe: the run stops. -/
  | notModelled (mnemonic : String)
  /-- Raised by `step` (for the configuration in force and for one a reset brings): `CLK_CTRL_BASE` has bit 6
  or 5 set; "A model refuses a configuration that sets either one" (30_encoding R69, D17). Safe. -/
  | illegalConfiguration
  /-- Raised by `step`: another bus master writes the chip while the block is `BUSY`; "A model gives such a run
  no meaning" (20_memory R57, 60_exceptions R170, 93 U2 `refuse`). Safe. -/
  | interleavedWrite
deriving DecidableEq, Repr

/-- The bank's answer to one write (20_memory R44). -/
inductive Answer where
  | ok
  | err
deriving DecidableEq, Repr

/-- One element of a command's write list `W` (00_scope R13). -/
structure Write where
  addr : Addr
  data : Byte
deriving DecidableEq, Repr

/-- One transaction `Write(dev, addr, data)` with its answer (20_memory R44, R51). -/
structure LogEntry where
  dev : BitVec 7
  addr : Addr
  data : Byte
  answer : Answer
deriving DecidableEq, Repr

/-- The state update `U` of a command (00_scope R13): what SETUP_PLL records (41_pll R107), what SETUP_MS and
SET_FREQ record (42_multisynth R117, 44_resolver R141), or nothing. -/
inductive Update where
  | nothing
  | recordVco (p : Pll) (v : BitVec 65)
  | recordP1hi (c : Channel) (v : BitVec 2)
deriving DecidableEq, Repr

/-- `Plan(state, cmd)` when it is no fault: the pair `(W, U)` (00_scope R13). -/
structure Plan where
  writes : List Write
  update : Update
deriving DecidableEq, Repr

/-- The codes of `STATUS.CODE` (60_exceptions R156). -/
inductive Code where
  | ok
  | illegalCommand
  | illegalOperand
  | zeroFrequency
  | busError
deriving DecidableEq, Repr

/-- `Plan(state, cmd)`: "returns either a fault, or a pair `(W, U)`" (00_scope R13). -/
inductive Planned where
  | fault (c : Code)
  | writes (pl : Plan)
deriving DecidableEq, Repr

/-- A command in progress (10_state R25): `done` is the index `i` of the next write, which is the number of
writes answered `OK`; `rest` is `W[i..]`, whose head is the write the bank has not answered yet; `update` is
`U`. -/
structure Flight where
  done : Nat
  rest : List Write
  update : Update
deriving DecidableEq, Repr

/-- `MODE` (10_state R28). The sequencing state exists only within a command (10_state R25), so it lives inside
`busy`. -/
inductive Mode where
  | idle
  | busy (f : Flight)
deriving DecidableEq, Repr

/-- What reaches the block from outside other than words and answers (log 7). -/
inductive Outside where
  /-- The Device is constructed anew with this configuration (70_reset R176, R177, 60_exceptions R170). -/
  | reset (cfg : Config)
  /-- Another bus master writes the chip (20_memory R57). -/
  | foreignWrite
deriving DecidableEq, Repr

/-- Register Bank locations whose content is known, addresses strictly rising. An unlisted address is
*unknown*: it has no value (20_memory R51, log 5). -/
abbrev Memory := List Host.Cell

/-- The canonical form: addresses strictly rising. No entry can equal what an unlisted address reads as, since
an unlisted address has no value. -/
def Memory.wf : Memory → Bool
  | [] => true
  | [_] => true
  | (a, _) :: (b, y) :: m => decide (a < b) && Memory.wf ((b, y) :: m)

/-- The state of the machine. -/
structure State where
  /-- The parameters (00_scope R6); no command changes them. -/
  cfg : Config
  /-- `XTAL` (10_state R23) -/
  xtal : BitVec 32
  /-- `BUSADDR` (10_state R23) -/
  busaddr : BitVec 7
  /-- `VCO[A]` (10_state R24) -/
  vcoA : BitVec 65
  /-- `VCO[B]` (10_state R24) -/
  vcoB : BitVec 65
  /-- `P1HI[0]` (10_state R26) -/
  p1hi0 : BitVec 2
  /-- `P1HI[1]` (10_state R26) -/
  p1hi1 : BitVec 2
  /-- `P1HI[2]` (10_state R26) -/
  p1hi2 : BitVec 2
  /-- `STATUS` (10_state R27) -/
  status : BitVec 32
  /-- `MODE` (10_state R28) with the write index of a command in progress (10_state R25) -/
  mode : Mode
  /-- The command port: words presented and not yet taken, in arrival order (60_exceptions R170). -/
  port : List CmdWord
  /-- The bank's answers that have arrived and are not consumed, in order (20_memory R44): "a draw of the bank,
  under no law", so every list is a possible one. While it is empty, a write waits for its answer. FAIRNESS
  (70_reset R186): a claim that a command ends needs as its premise that the answers are there. -/
  bus : List Answer
  /-- Resets and foreign writes that have arrived and are not yet seen, in order (log 7). -/
  outside : List Outside
  /-- The write log, oldest first (20_memory R51). -/
  log : List LogEntry
  /-- The bank image of the log (20_memory R51). The block never reads it. -/
  bank : Memory
  /-- The completion words returned on the response port, oldest first (60_exceptions R160). -/
  responses : List (BitVec 32)
deriving DecidableEq, Repr

/-- A Device constructed with a configuration, before anything has happened (10_state R32, 70_reset R176).
DESIGN CHOICE (log 4, log 7, log 13, unsafe): the ports and the log start empty.
Nothing is known of the bank (93 U8, log 5). -/
def State.construct (cfg : Config) : State where
  cfg := cfg
  xtal := cfg.xtalHz
  busaddr := cfg.busAddr
  vcoA := 0#65
  vcoB := 0#65
  p1hi0 := 0#2
  p1hi1 := 0#2
  p1hi2 := 0#2
  status := 0#32
  mode := .idle
  port := []
  bus := []
  outside := []
  log := []
  bank := []
  responses := []

/-- The machine right after reset, with the default parameters of 00_scope R6 (log 2). -/
def State.reset : State := State.construct Config.default

end Sys2Proof.Machine
end

