-- ==== Sys2Proof/Machine/Flags.lean ====
section
/-! DEFINITION. `STATUS`, the block's only flags (10_state R27, R29; 60_exceptions R156, R160). -/

namespace Sys2Proof.Machine

/-- The number of a code (60_exceptions R156). -/
def codeBits : Code → BitVec 4
  | .ok => 0#4
  | .illegalCommand => 1#4
  | .illegalOperand => 2#4
  | .zeroFrequency => 3#4
  | .busError => 4#4

/-- The completion word `zext_32({faddr[7:0], nwr[3:0], code[3:0]})` (60_exceptions R162). -/
def statusWord (c : Code) (nwr : Nat) (faddr : Addr) : BitVec 32 :=
  0#16 ++ faddr ++ BitVec.ofNat 4 nwr ++ codeBits c

/-- `STATUS.CODE`, bits 3:0 (10_state R27). -/
def statusCode (v : BitVec 32) : BitVec 4 := v.extractLsb' 0 4

/-- `STATUS.NWR`, bits 7:4. -/
def statusNwr (v : BitVec 32) : BitVec 4 := v.extractLsb' 4 4

/-- `STATUS.FADDR`, bits 15:8. -/
def statusFaddr (v : BitVec 32) : Addr := v.extractLsb' 8 8

/-- The reserved bits 31:16 of `STATUS`. -/
def statusReserved (v : BitVec 32) : BitVec 16 := v.extractLsb' 16 16

end Sys2Proof.Machine
end

