-- ==== Sys2Proof/Machine/Operands.lean ====
section
/-! DEFINITION. The operand forms: the channel operand, the PLL and channel registers of the Device, the fixed
addresses of 00_scope R6 and 20_memory R43, and the operand checks of Validate (60_exceptions R158, R159). -/

namespace Sys2Proof.Machine

/-- The channel an operand names; none for 3, which is encodable and faults (60_exceptions R158 (a)). -/
def channelOf (ch : BitVec 2) : Option Channel :=
  if ch = 0#2 then some .ch0
  else if ch = 1#2 then some .ch1
  else if ch = 2#2 then some .ch2
  else none

/-- The index 0..2 of a channel. -/
def channelIndex : Channel → Nat
  | .ch0 => 0
  | .ch1 => 1
  | .ch2 => 2

/-- `PLL_BASE(p)` (00_scope R6, 30_encoding R68). -/
def pllBase : Pll → Nat
  | .a => 26
  | .b => 34

/-- `MS_BASE(ch) = 42 + 8*ch` (30_encoding R68). -/
def msBase (c : Channel) : Nat := 42 + 8 * channelIndex c

/-- `RDIV_ADDR(ch) = MS_BASE(ch) + 2` (00_scope R6, 30_encoding R70, D14, C1). -/
def rdivAddr (c : Channel) : Addr := BitVec.ofNat 8 (msBase c + 2)

/-- `CLK_CTRL_ADDR(ch)` (00_scope R6, D16). -/
def clkCtrlAddr (cfg : Config) : Channel → Addr
  | .ch0 => cfg.clkCtrlAddr0
  | .ch1 => cfg.clkCtrlAddr1
  | .ch2 => cfg.clkCtrlAddr2

/-- `VCO[p]` (00_scope R10, 10_state R24). -/
def State.vco (s : State) : Pll → BitVec 65
  | .a => s.vcoA
  | .b => s.vcoB

/-- `VCO[p] <- v` (00_scope R10). -/
def State.setVco (s : State) (p : Pll) (v : BitVec 65) : State :=
  match p with
  | .a => { s with vcoA := v }
  | .b => { s with vcoB := v }

/-- `P1HI[ch]` (00_scope R10, 10_state R26). -/
def State.p1hi (s : State) : Channel → BitVec 2
  | .ch0 => s.p1hi0
  | .ch1 => s.p1hi1
  | .ch2 => s.p1hi2

/-- `P1HI[ch] <- v` (00_scope R10). -/
def State.setP1hi (s : State) (c : Channel) (v : BitVec 2) : State :=
  match c with
  | .ch0 => { s with p1hi0 := v }
  | .ch1 => { s with p1hi1 := v }
  | .ch2 => { s with p1hi2 := v }

/-- A plan that names a channel: `ch = 3` is `ILLEGAL_OPERAND` before anything else is looked at
(60_exceptions R158 (a), R163). -/
def withChannel (ch : BitVec 2) (k : Channel → Planned) : Planned :=
  match channelOf ch with
  | none => .fault .illegalOperand
  | some c => k c

/-- A plan with a fraction: `denom = 0` is `ILLEGAL_OPERAND` (60_exceptions R158 (b), R163). -/
def withDenom (denom : BitVec 20) (pl : Planned) : Planned :=
  if denom = 0#20 then .fault .illegalOperand else pl

/-- A plan with a target frequency: `f = 0` is `ZERO_FREQUENCY` (60_exceptions R159, R163). -/
def withFreq (f : BitVec 32) (pl : Planned) : Planned :=
  if f = 0#32 then .fault .zeroFrequency else pl

end Sys2Proof.Machine
end

