-- ==== Sys2Proof/Machine/Ops.lean ====
section
/-! DEFINITION. The shared operations: the bank image, the write transaction, the completion of a command
(taking a fault is one of its cases, 60_exceptions R164), the run of a write list, and the construction of the
Device. -/

namespace Sys2Proof.Machine

/-- The known content of a location, none where it is unknown (20_memory R51). The block never calls it: "The
engine never reads registers back" (20_memory R41). -/
def Memory.read : Memory → Nat → Option Byte
  | [], _ => none
  | (b, y) :: m, a => if a = b then some y else Memory.read m a

/-- The location `a` is known to hold `x`. -/
def Memory.store (a : Nat) (x : Byte) : Memory → Memory
  | [] => [(a, x)]
  | (b, y) :: m =>
    if a < b then (a, x) :: (b, y) :: m
    else if a = b then (a, x) :: m
    else (b, y) :: Memory.store a x m

/-- The location `a` becomes unknown: the value an unlisted address has, so the entry goes. -/
def Memory.forget (a : Nat) : Memory → Memory
  | [] => []
  | (b, y) :: m => if a = b then m else (b, y) :: Memory.forget a m

/-- The bank image of a log at an address (20_memory R51): the data of the last write there if it was answered
`OK`; unknown if that write was answered `ERR` or there is none. -/
def imageOf (log : List LogEntry) (a : Addr) : Option Byte :=
  match log.reverse.find? (fun e => e.addr == a) with
  | none => none
  | some e => if e.answer = .ok then some e.data else none

/-- What one answered write does to the bank image (20_memory R51). -/
def bankAfter (w : Write) : Answer → Memory → Memory
  | .ok, m => m.store w.addr.toNat w.data
  | .err, m => m.forget w.addr.toNat

/-- `MemWrite(addr, 1, v)` and its answer: one transaction `Write(dev = BUSADDR, addr, data)` on the write port
(00_scope R11, 20_memory R44, R48). -/
def State.memWrite (s : State) (w : Write) (a : Answer) : State :=
  { s with log := s.log ++ [⟨s.busaddr, w.addr, w.data, a⟩], bank := bankAfter w a s.bank }

/-- `finish(code, nwr, faddr)` (60_exceptions R160, R162): `STATUS` is overwritten whole, `MODE <- IDLE`, and
`STATUS` is returned on the response port. A fault is taken by this operation and saves nothing else (R164). -/
def State.finish (s : State) (c : Code) (nwr : Nat) (faddr : Addr) : State :=
  { s with
    status := statusWord c nwr faddr
    mode := .idle
    responses := s.responses ++ [statusWord c nwr faddr] }

/-- A fault found before any write: `finish(F, 0, 0)` (60_exceptions R162, 00_scope R12). -/
def State.raise (s : State) (c : Code) : State := s.finish c 0 0#8

/-- The update `U` (00_scope R13). -/
def State.apply (s : State) : Update → State
  | .nothing => s
  | .recordVco p v => s.setVco p v
  | .recordP1hi c v => s.setP1hi c v

/-- The loop of `Exec` (60_exceptions R162) over the writes `W[i..]` and the answers that have arrived:
an `OK` goes on to the next write, an `ERR` ends the command with `BUS_ERROR`, `NWR = i` and the address, and
after the last `OK` the update is applied and the command ends `OK`. Where no answer has arrived the block stays
`BUSY` with that write unanswered, since it "issues the next write of a command only after the answer to the
previous one" (20_memory R44; log 3). -/
def State.drive (s : State) (done : Nat) (u : Update) : List Write → List Answer → State
  | [], answers => (({ s with bus := answers }).apply u).finish .ok done 0#8
  | w :: ws, [] => { s with bus := [], mode := .busy ⟨done, w :: ws, u⟩ }
  | w :: ws, .ok :: answers => (s.memWrite w .ok).drive (done + 1) u ws answers
  | w :: _, .err :: answers =>
    (({ s with bus := answers }).memWrite w .err).finish .busError done w.addr

/-- `Exec` after decoding (60_exceptions R162): a fault of Validate ends the command with no write; else the
writes of the plan run from index 0. -/
def State.run (s : State) : Planned → State
  | .fault c => s.raise c
  | .writes pl => s.drive 0 pl.update pl.writes s.bus

/-- A command in progress goes on with the answers that have arrived (10_state R25). -/
def State.resume (s : State) (f : Flight) : State := s.drive f.done f.update f.rest s.bus

/-- The construction of the Device (70_reset R176, R177): every piece of the block's state takes its value of
10_state R32 for the configuration given, a command in progress is abandoned, and no write is issued. The bank
keeps the writes already answered; the words the host still presents, answers not consumed, the log and the
responses already given are not the Device's and stay (log 6). -/
def State.constructDevice (s : State) (cfg : Config) : State :=
  { State.construct cfg with
    port := s.port
    bus := s.bus
    outside := s.outside
    log := s.log
    bank := s.bank
    responses := s.responses }

end Sys2Proof.Machine
end

