-- ==== Sys2Proof/Machine/Pack.lean ====
section
/-! DEFINITION. The Field Packer (40_field_packer) and the encoding of the register bytes the block writes
(30_encoding R67 to R71). Arithmetic is exact over naturals and integers (00_scope R7, R9, D7). -/

namespace Sys2Proof.Machine

/-- The fields P1, P2 and P3 (40_field_packer R91). -/
structure Packed where
  p1 : BitVec 18
  p2 : BitVec 20
  p3 : BitVec 20
deriving DecidableEq, Repr

/-- The common quotient `q = (128*b) // c` (40_field_packer R92). -/
def quotient (b c : Nat) : Nat := 128 * b / c

/-- `PACK(a, b, c)` without the bytes (40_field_packer R93 to R96). P1's intermediate is an integer and may be
negative; `mod 2^18` is its two's-complement value (R94, 00_scope R8). -/
def pack (a b c : Nat) : Packed where
  p1 := BitVec.ofInt 18 (128 * (a : Int) + (quotient b c : Int) - 512)
  p2 := BitVec.ofNat 20 (128 * b - c * quotient b c)
  p3 := BitVec.ofNat 20 c

/-- `UNPACK(P1, P2, P3)`, the reference function of the round-trip law; no operation of the block
(40_field_packer R98). -/
def unpack (f : Packed) : Nat × Nat × Nat :=
  let t := f.p1.toNat + 512
  let q := t % 128
  (t / 128, (f.p3.toNat * q + f.p2.toNat) / 128, f.p3.toNat)

/-- `P1[17:16]`, what P1HI keeps of a block (10_state R26). -/
def p1High (f : Packed) : BitVec 2 := f.p1.extractLsb' 16 2

/-- `BlockBytes(P1, P2, P3)`, bytes 0 to 7 (30_encoding R67, 20_memory R45). -/
def blockBytes (f : Packed) : List Byte :=
  [ f.p3.extractLsb' 8 8,
    f.p3.extractLsb' 0 8,
    0#6 ++ p1High f,
    f.p1.extractLsb' 8 8,
    f.p1.extractLsb' 0 8,
    f.p3.extractLsb' 16 4 ++ f.p2.extractLsb' 16 4,
    f.p2.extractLsb' 8 8,
    f.p2.extractLsb' 0 8 ]

/-- The bytes written to `base`, `base + 1`, ... in index order (40_field_packer R96). -/
def writesFrom (base : Nat) : List Byte → List Write
  | [] => []
  | b :: bs => ⟨BitVec.ofNat 8 base, b⟩ :: writesFrom (base + 1) bs

/-- The eight writes of a parameter block (30_encoding R67). -/
def blockWrites (base : Nat) (f : Packed) : List Write := writesFrom base (blockBytes f)

/-- `ClkCtrl(pll, num)` (30_encoding R69, 42_multisynth R118). -/
def clkCtrl (cfg : Config) (p : Pll) (num : Nat) : Byte :=
  cfg.clkCtrlBase ||| (if p = .b then 1#8 else 0#8) <<< 5 ||| (if num = 0 then 1#8 else 0#8) <<< 6

/-- `RdivByte(n, low) = (n[2:0] << 4) | low` (30_encoding R70). -/
def rdivByte (n : BitVec 3) (low : BitVec 2) : Byte := n.zeroExtend 8 <<< 4 ||| low.zeroExtend 8

/-- The low bits of the R-divider byte, from the P1[17:16] they follow (43_rdiv R128, 44_resolver R141). -/
def rdivLow (cfg : Config) (p1hi : BitVec 2) : BitVec 2 :=
  match cfg.rdivLowBits with
  | .msLayout => p1hi
  | .zero => 0#2

/-- The output enable value: 0x00 enables all outputs, 0xFF disables all (30_encoding R71). -/
def enableByte (en : Bool) : Byte := if en then 0x00#8 else 0xFF#8

end Sys2Proof.Machine
end

