-- ==== Sys2Proof/Machine/Multisynth.lean ====
section
/-! DEFINITION. SETUP_MS (42_multisynth). -/

namespace Sys2Proof.Machine

/-- `(W, U)` of the Multisynth Configurator for a divider of any size (42_multisynth R117; SET_FREQ calls it with
a `div` that is not bounded to 32 bits, 44_resolver R141). -/
def msPlan (cfg : Config) (c : Channel) (p : Pll) (div num denom : Nat) : Plan where
  writes := blockWrites (msBase c) (pack div num denom) ++ [⟨clkCtrlAddr cfg c, clkCtrl cfg p num⟩]
  update := .recordP1hi c (p1High (pack div num denom))

/-- `Plan(s, SETUP_MS(ch, p, div, num, denom))` (42_multisynth R117); `ch = 3` and `denom = 0` fault, in that
order (R120, 60_exceptions R163). -/
def planSetupMs (ch : BitVec 2) (p : Pll) (div : BitVec 32) (num denom : BitVec 20) (s : State) : Planned :=
  withChannel ch fun c => withDenom denom <| .writes (msPlan s.cfg c p div.toNat num.toNat denom.toNat)

/-- The meaning of SETUP_MS. -/
def execSetupMs (ch : BitVec 2) (p : Pll) (div : BitVec 32) (num denom : BitVec 20) (s : State) :
    Host.Outcome State Fault Refusal :=
  .next (s.run (planSetupMs ch p div num denom s))

end Sys2Proof.Machine
end

