-- ==== Sys2Proof/Machine/OutputEnable.lean ====
section
/-! DEFINITION. ENABLE_OUTPUTS (45_output_enable). -/

namespace Sys2Proof.Machine

/-- `Plan(s, ENABLE_OUTPUTS(en))` (45_output_enable R152). -/
def planEnableOutputs (en : Bool) (s : State) : Planned :=
  .writes { writes := [⟨s.cfg.oeAddr, enableByte en⟩], update := .nothing }

/-- The meaning of ENABLE_OUTPUTS. -/
def execEnableOutputs (en : Bool) (s : State) : Host.Outcome State Fault Refusal :=
  .next (s.run (planEnableOutputs en s))

end Sys2Proof.Machine
end

