-- ==== Sys2Proof/Machine/PllConfigurator.lean ====
section
/-! DEFINITION. SETUP_PLL (41_pll). -/

namespace Sys2Proof.Machine

/-- The VCO record `(XTAL * (mult*denom + num)) // denom`, exact over naturals (41_pll R109, D7, D8). -/
def vcoRecord (xtal mult num denom : Nat) : Nat := xtal * (mult * denom + num) / denom

/-- The write of `PLL_RESET_VALUE` to `PLL_RESET_ADDR`, the same for both PLLs (41_pll R108). -/
def pllResetWrite (cfg : Config) : Write := ⟨cfg.pllResetAddr, cfg.pllResetValue⟩

/-- `Plan(s, SETUP_PLL(p, mult, num, denom))` (41_pll R107); `denom = 0` faults (R111). The 65-bit register
holds every value the operands give (10_state R24, D9). -/
def planSetupPll (p : Pll) (mult : BitVec 32) (num denom : BitVec 20) (s : State) : Planned :=
  withDenom denom <| .writes
    { writes :=
        blockWrites (pllBase p) (pack mult.toNat num.toNat denom.toNat) ++ [pllResetWrite s.cfg]
      update :=
        .recordVco p (BitVec.ofNat 65 (vcoRecord s.xtal.toNat mult.toNat num.toNat denom.toNat)) }

/-- The meaning of SETUP_PLL. -/
def execSetupPll (p : Pll) (mult : BitVec 32) (num denom : BitVec 20) (s : State) :
    Host.Outcome State Fault Refusal :=
  .next (s.run (planSetupPll p mult num denom s))

end Sys2Proof.Machine
end

