-- ==== Sys2Proof/Machine/Rdiv.lean ====
section
/-! DEFINITION. SETUP_RDIV (43_rdiv). -/

namespace Sys2Proof.Machine

/-- The write of the R-Divider Configurator, after a Multisynth block whose P1[17:16] is `p1hi` (43_rdiv R127,
R128, 44_resolver R141). -/
def rdivWrite (cfg : Config) (c : Channel) (n : BitVec 3) (p1hi : BitVec 2) : Write :=
  ⟨rdivAddr c, rdivByte n (rdivLow cfg p1hi)⟩

/-- `Plan(s, SETUP_RDIV(ch, n))` (43_rdiv R127); `ch = 3` faults (R130). -/
def planSetupRdiv (ch : BitVec 2) (n : BitVec 3) (s : State) : Planned :=
  withChannel ch fun c => .writes { writes := [rdivWrite s.cfg c n (s.p1hi c)], update := .nothing }

/-- The meaning of SETUP_RDIV. -/
def execSetupRdiv (ch : BitVec 2) (n : BitVec 3) (s : State) : Host.Outcome State Fault Refusal :=
  .next (s.run (planSetupRdiv ch n s))

end Sys2Proof.Machine
end

