-- ==== Sys2Proof/Machine/Resolver.lean ====
section
/-! DEFINITION. SET_FREQ, the Frequency Resolver (44_resolver). -/

namespace Sys2Proof.Machine

/-- `FRAC_LIMIT` (00_scope R6). -/
def fracLimit : Nat := 1048575

/-- Is `f` in band `k`, `[4000*2^k, 4000*2^(k+1))` (44_resolver R134)? -/
def inBand (f k : Nat) : Bool := decide (4000 * 2 ^ k ≤ f ∧ f < 4000 * 2 ^ (k + 1))

/-- `Stage(f)`: exponent `7 - k` for the band `k` in 0..6 that holds `f`, else 0 (44_resolver R134, R135). -/
def stage (f : Nat) : Nat :=
  match (List.range 7).find? (inBand f) with
  | some k => 7 - k
  | none => 0

/-- The halving loop of `Reduce`, `fuel` rounds at most (44_resolver R139). -/
def reduceLoop : Nat → Nat → Nat → Nat × Nat
  | 0, num, den => (num, den)
  | fuel + 1, num, den =>
    if den > fracLimit then reduceLoop fuel (num / 2) (den / 2) else (num, den)

/-- `Reduce(num, den)` (44_resolver R139). DEDUCED (log 15, safe): `log2 den` rounds are never too few, since that
many halvings bring any `den` to at most 1. -/
def reduce (num den : Nat) : Nat × Nat := reduceLoop (Nat.log2 den) num den

/-- What SET_FREQ resolves a frequency to (44_resolver R141). -/
structure Resolved where
  exponent : Nat
  div : Nat
  num : Nat
  den : Nat
deriving DecidableEq, Repr

/-- Steps 1 to 4 of SET_FREQ from the recorded VCO frequency (44_resolver R134 to R139). -/
def resolve (fvco f : Nat) : Resolved :=
  let e := stage f
  let fs := f * 2 ^ e
  let r := reduce (fvco % fs) fs
  { exponent := e, div := fvco / fs, num := r.1, den := r.2 }

/-- The writes and the update of SET_FREQ on a legal channel for a resolved frequency: the Multisynth
Configurator, then the R-Divider Configurator (44_resolver R141). -/
def resolvedPlan (cfg : Config) (c : Channel) (p : Pll) (r : Resolved) : Plan :=
  let ms := msPlan cfg c p r.div r.num r.den
  { writes :=
      ms.writes ++ [rdivWrite cfg c (BitVec.ofNat 3 r.exponent) (p1High (pack r.div r.num r.den))]
    update := ms.update }

/-- `Plan(s, SET_FREQ(ch, p, f))` (44_resolver R141); `ch = 3` and `f = 0` fault, in that order (60_exceptions
R158, R159, R163). -/
def planSetFreq (ch : BitVec 2) (p : Pll) (f : BitVec 32) (s : State) : Planned :=
  withChannel ch fun c => withFreq f <|
    .writes (resolvedPlan s.cfg c p (resolve (s.vco p).toNat f.toNat))

/-- The meaning of SET_FREQ. -/
def execSetFreq (ch : BitVec 2) (p : Pll) (f : BitVec 32) (s : State) : Host.Outcome State Fault Refusal :=
  .next (s.run (planSetFreq ch p f s))

end Sys2Proof.Machine
end

