-- ==== Sys2Proof/Machine/Dispatch.lean ====
section
/-! DEFINITION. One arm per command. -/

namespace Sys2Proof.Machine

def exec (i : Instr) (s : State) : Host.Outcome State Fault Refusal :=
  match i with
  | .setupPll p mult num denom => Sys2Proof.Machine.execSetupPll p mult num denom s
  | .setupMs ch p div num denom => Sys2Proof.Machine.execSetupMs ch p div num denom s
  | .setupRdiv ch n => Sys2Proof.Machine.execSetupRdiv ch n s
  | .setFreq ch p f => Sys2Proof.Machine.execSetFreq ch p f s
  | .enableOutputs en => Sys2Proof.Machine.execEnableOutputs en s

end Sys2Proof.Machine
end

