-- ==== Sys2Proof/Machine/Port.lean ====
section
/-! DEFINITION. What the block does with each thing that reaches it: a word taken from the command port, a
reset, a foreign write. `step` only chooses among these. -/

namespace Sys2Proof.Machine

/-- `Exec(s, w)` (60_exceptions R162): decode the word; an illegal one completes with `ILLEGAL_COMMAND` and no
write (R157), a command runs. -/
def State.takeWord (s : State) (w : CmdWord) : Host.Outcome State Fault Refusal :=
  match decode w with
  | .illegal _ => .next (s.raise .illegalCommand)
  | .command i => exec i s

/-- In `IDLE` the block takes the first waiting word; with none it waits (60_exceptions R170, 70_reset R177;
log 9). -/
def State.idleStep (s : State) : Host.Outcome State Fault Refusal :=
  match s.port with
  | [] => .next s
  | w :: ws => ({ s with port := ws }).takeWord w

/-- In `BUSY` the command in progress goes on; no word is taken (10_state R28). -/
def State.busyStep (s : State) (f : Flight) : Host.Outcome State Fault Refusal := .next (s.resume f)

/-- What arrives from outside (log 7): a reset constructs the Device, unless the configuration it brings is
refused (30_encoding R69); a foreign write while `BUSY` is refused (20_memory R57); in `IDLE` it is the host's
right (60_exceptions R170) and changes no state of the block (20_memory R56). -/
def State.outsideStep (s : State) : Outside → Host.Outcome State Fault Refusal
  | .reset cfg =>
    if cfg.legal then .next (s.constructDevice cfg) else .refused .illegalConfiguration
  | .foreignWrite =>
    match s.mode with
    | .busy _ => .refused .interleavedWrite
    | .idle => .next s

/-- The step's choice: a refused configuration runs nothing (30_encoding R69); then what arrived from outside;
then the command in progress; then the command port (log 7). -/
def State.stepCases (s : State) : Host.Outcome State Fault Refusal :=
  if s.cfg.legal then
    match s.outside with
    | o :: os => ({ s with outside := os }).outsideStep o
    | [] =>
      match s.mode with
      | .busy f => s.busyStep f
      | .idle => s.idleStep
  else .refused .illegalConfiguration

/-- Where the next command word is taken from: the head of the command port of an idle block to which nothing
else has arrived (log 1). -/
def State.presentFirst (s : State) (w : CmdWord) : State :=
  { s with mode := .idle, outside := [], port := w :: s.port }

end Sys2Proof.Machine
end

