-- ==== Sys2Proof/Machine/Step.lean ====
section
/-! DEFINITION. One step of the machine. -/

namespace Sys2Proof.Machine

/-- One step: what `State.stepCases` says. -/
def step : State → Host.Outcome State Fault Refusal := State.stepCases

/-- `s` with the command of a table row's number presented so that the very next step takes it (log 1, log 16). -/
def State.withFetchWord (s : State) (nbits w : Nat) : State := s.presentFirst (tableWord nbits w)

end Sys2Proof.Machine
end

