-- ==== Sys2Proof/Machine/Assembler.lean ====
section
/-! DEFINITION. The assembler syntax and its two pseudo-instructions (30_encoding R74, R75). It is no part of a
step: the machine sees command words only. -/

namespace Sys2Proof.Machine

/-- Why a line gives no word (30_encoding R74). -/
inductive AsmError where
  /-- The first word of the line is none of the five mnemonics. -/
  | unknownMnemonic
  /-- An operand is missing, is one too many, or is of the wrong kind. -/
  | wrongOperands
  /-- An operand is neither `A`, `B` nor a number. -/
  | unreadableOperand
  /-- "An operand that does not fit its field is an assembler error" (30_encoding R74). -/
  | doesNotFit
deriving DecidableEq, Repr

/-- An operand as written. -/
inductive Operand where
  | pll (p : Pll)
  | number (n : Nat)
deriving DecidableEq, Repr

/-- What the assembler gives for a line. -/
inductive Assembled where
  | command (i : Instr)
  | error (e : AsmError)
deriving DecidableEq, Repr

/-- The value of a digit in base 10 or 16. Letter case does not matter (DESIGN CHOICE, log 12). -/
def digitValue (base : Nat) (ch : Char) : Option Nat :=
  let v :=
    if '0' ≤ ch ∧ ch ≤ '9' then ch.toNat - '0'.toNat
    else if 'a' ≤ ch ∧ ch ≤ 'f' then ch.toNat - 'a'.toNat + 10
    else if 'A' ≤ ch ∧ ch ≤ 'F' then ch.toNat - 'A'.toNat + 10
    else 16
  if v < base then some v else none

/-- The number a digit string continues. -/
def digitsValue (base : Nat) : Nat → List Char → Option Nat
  | acc, [] => some acc
  | acc, ch :: cs =>
    match digitValue base ch with
    | none => none
    | some v => digitsValue base (acc * base + v) cs

/-- A number: decimal, or hexadecimal with the prefix `0x` (30_encoding R74). -/
def readNumber : List Char → Option Nat
  | [] => none
  | ['0', 'x'] => none
  | '0' :: 'x' :: cs => digitsValue 16 0 cs
  | cs => digitsValue 10 0 cs

/-- An operand: `A`, `B` or a number (30_encoding R74). -/
def readOperand : List Char → Option Operand
  | ['A'] => some (.pll .a)
  | ['B'] => some (.pll .b)
  | cs => (readNumber cs).map .number

/-- Blanks of a line (DESIGN CHOICE, log 12). -/
def isBlank (ch : Char) : Bool := ch == ' ' || ch == '\t'

/-- A text without the blanks at its two ends (log 12). -/
def trimBlanks (cs : List Char) : List Char :=
  ((cs.dropWhile isBlank).reverse.dropWhile isBlank).reverse

/-- The parts of a text between its commas (30_encoding R74). -/
def splitCommas : List Char → List (List Char)
  | [] => [[]]
  | ',' :: cs => [] :: splitCommas cs
  | ch :: cs =>
    match splitCommas cs with
    | [] => [[ch]]
    | part :: parts => (ch :: part) :: parts

/-- The operands of a text. -/
def readOperands (cs : List Char) : Option (List Operand) :=
  (splitCommas cs).mapM fun part => readOperand (trimBlanks part)

/-- The mnemonics, lower case (30_encoding R74). -/
def readMnemonic (cs : List Char) : Option Opcode :=
  if cs = "setup_pll".toList then some .setupPll
  else if cs = "setup_ms".toList then some .setupMs
  else if cs = "setup_rdiv".toList then some .setupRdiv
  else if cs = "set_freq".toList then some .setFreq
  else if cs = "enable_outputs".toList then some .enableOutputs
  else none

/-- The field value of a number, where it fits (30_encoding R74). -/
def fit (width n : Nat) : Option (BitVec width) :=
  if n < 2 ^ width then some (BitVec.ofNat width n) else none

/-- A command whose operands all fit their fields. -/
def whenFits (i : Option Instr) : Assembled :=
  match i with
  | some i => .command i
  | none => .error .doesNotFit

/-- The command of a mnemonic and its operands (30_encoding R74); a missing fraction is `0, 1` (R75, D27). -/
def assembleOperands : Opcode → List Operand → Assembled
  | .setupPll, [.pll p, .number m, .number n, .number d] =>
    whenFits do return .setupPll p (← fit 32 m) (← fit 20 n) (← fit 20 d)
  | .setupPll, [.pll p, .number m] =>
    whenFits do return .setupPll p (← fit 32 m) 0#20 1#20
  | .setupMs, [.number ch, .pll p, .number v, .number n, .number d] =>
    whenFits do return .setupMs (← fit 2 ch) p (← fit 32 v) (← fit 20 n) (← fit 20 d)
  | .setupMs, [.number ch, .pll p, .number v] =>
    whenFits do return .setupMs (← fit 2 ch) p (← fit 32 v) 0#20 1#20
  | .setupRdiv, [.number ch, .number n] =>
    whenFits do return .setupRdiv (← fit 2 ch) (← fit 3 n)
  | .setFreq, [.number ch, .pll p, .number f] =>
    whenFits do return .setFreq (← fit 2 ch) p (← fit 32 f)
  | .enableOutputs, [.number e] =>
    whenFits do return .enableOutputs ((← fit 1 e) == 1#1)
  | _, _ => .error .wrongOperands

/-- One line of text (30_encoding R74): the mnemonic, a blank, the operands. -/
def assembleLine (line : String) : Assembled :=
  let text := trimBlanks line.toList
  match readMnemonic (text.takeWhile fun ch => !isBlank ch) with
  | none => .error .unknownMnemonic
  | some op =>
    match readOperands (text.dropWhile fun ch => !isBlank ch) with
    | none => .error .unreadableOperand
    | some operands => assembleOperands op operands

/-- The word of a line, where the line gives one: "no word is produced" for an error (30_encoding R74). -/
def assembleWord (line : String) : Option CmdWord :=
  match assembleLine line with
  | .command i => some (encode i)
  | .error _ => none

end Sys2Proof.Machine
end

