-- ==== Sys2Proof/Machine/Plans.lean ====
section
/-! DEFINITION. `Plan(state, cmd)` of 00_scope R13 over all commands. The meanings call each command's own plan;
claims about all commands speak of this one. -/

namespace Sys2Proof.Machine

/-- `Plan(state, cmd)`: a fault, or the write list and the update (00_scope R13). -/
def planOf (i : Instr) (s : State) : Planned :=
  match i with
  | .setupPll p mult num denom => planSetupPll p mult num denom s
  | .setupMs ch p div num denom => planSetupMs ch p div num denom s
  | .setupRdiv ch n => planSetupRdiv ch n s
  | .setFreq ch p f => planSetFreq ch p f s
  | .enableOutputs en => planEnableOutputs en s

/-- The write list `W` of a plan; empty for a fault (00_scope R13). -/
def plannedWrites : Planned → List Write
  | .fault _ => []
  | .writes pl => pl.writes

end Sys2Proof.Machine
end

