-- ==== Sys2Proof/Safety.lean ====
section
/-! DEFINITION. The terms in which claims about runs are stated: what a completed, failed or waiting write list
leaves, the addresses a command may write (20_memory R42), the invariant, and the end of a run. Written from
the spec, not from the run of a write list in Machine/Ops.lean. -/

namespace Sys2Proof.Machine

/-- The log entries of writes answered `OK` (20_memory R44, R51). -/
def okEntries (dev : BitVec 7) (ws : List Write) : List LogEntry :=
  ws.map fun w => ⟨dev, w.addr, w.data, .ok⟩

/-- The bank image after writes answered `OK` (20_memory R51). -/
def bankWith (ws : List Write) (m : Memory) : Memory :=
  ws.foldl (fun m w => m.store w.addr.toNat w.data) m

/-- `s` after the writes `ws` were all answered `OK` and consumed their answers, `answers` being left. -/
def State.wrote (s : State) (ws : List Write) (answers : List Answer) : State :=
  { s with
    log := s.log ++ okEntries s.busaddr ws
    bank := bankWith ws s.bank
    bus := answers }

/-- `s` after a command ended with this completion word (60_exceptions R160). -/
def State.completed (s : State) (word : BitVec 32) : State :=
  { s with status := word, mode := .idle, responses := s.responses ++ [word] }

/-- `s` after the writes `pre` were answered `OK` and the write `w` was answered `ERR` (60_exceptions R161). -/
def State.failedAt (s : State) (pre : List Write) (w : Write) (answers : List Answer) : State :=
  let t := s.wrote pre answers
  ({ t with
    log := t.log ++ [⟨s.busaddr, w.addr, w.data, .err⟩]
    bank := t.bank.forget w.addr.toNat } : State).completed (statusWord .busError pre.length w.addr)

/-- `s` waiting for the answer to the head of `post`, after the writes `pre` were answered `OK` (10_state R25). -/
def State.waiting (s : State) (pre post : List Write) (u : Update) : State :=
  { s.wrote pre [] with mode := .busy ⟨pre.length, post, u⟩ }

/-- The eight consecutive addresses from a base (30_encoding R67). -/
def eightFrom (base : Nat) : List Addr := (List.range 8).map fun k => BitVec.ofNat 8 (base + k)

/-- The addresses a command may write, in order (20_memory R42); none where the channel is illegal. -/
def addressesOf (cfg : Config) : Instr → List Addr
  | .setupPll .a _ _ _ => eightFrom 26 ++ [cfg.pllResetAddr]
  | .setupPll .b _ _ _ => eightFrom 34 ++ [cfg.pllResetAddr]
  | .setupMs ch _ _ _ _ =>
    match channelOf ch with
    | none => []
    | some c => eightFrom (42 + 8 * ch.toNat) ++ [clkCtrlAddr cfg c]
  | .setupRdiv ch _ =>
    match channelOf ch with
    | none => []
    | some _ => [BitVec.ofNat 8 (44 + 8 * ch.toNat)]
  | .setFreq ch _ _ =>
    match channelOf ch with
    | none => []
    | some c =>
      eightFrom (42 + 8 * ch.toNat) ++ [clkCtrlAddr cfg c, BitVec.ofNat 8 (44 + 8 * ch.toNat)]
  | .enableOutputs _ => [cfg.oeAddr]

/-- A completion word the block can give (10_state R27): codes 0 to 4, at most 10 writes, `FADDR` 0 unless the
code is `BUS_ERROR`, reserved bits 0. -/
def statusLegal (v : BitVec 32) : Bool :=
  decide ((statusCode v).toNat ≤ 4) && decide ((statusNwr v).toNat ≤ 10) &&
    (statusFaddr v == 0#8 || statusCode v == 4#4) && statusReserved v == 0#16

/-- A command in progress waits for a write, and never has more than ten (10_state R27). -/
def Mode.legal : Mode → Bool
  | .idle => true
  | .busy f => !f.rest.isEmpty && decide (f.done + f.rest.length ≤ 10)

/-- The invariant of the machine: the configuration is not refused (30_encoding R69), `XTAL` and `BUSADDR` are
the configured ones (10_state R22), `STATUS` and every response are words the block can give (10_state R27), the
command in progress is within bounds (10_state R25), and the bank holds exactly the image of the log, in
canonical form and inside the address space (20_memory R41, R51). -/
structure State.Inv (s : State) : Prop where
  cfg_legal : s.cfg.legal = true
  xtal_configured : s.xtal = s.cfg.xtalHz
  busaddr_configured : s.busaddr = s.cfg.busAddr
  status_legal : statusLegal s.status = true
  responses_legal : ∀ r ∈ s.responses, statusLegal r = true
  mode_legal : s.mode.legal = true
  bank_wf : Memory.wf s.bank = true
  bank_in_space : ∀ c ∈ s.bank, c.1 < 256
  bank_is_image : ∀ a : Addr, s.bank.read a.toNat = imageOf s.log a

/-- The end of a run of a command list (60_exceptions R171): no command in progress and none waiting. -/
def State.runEnded (s : State) : Prop := s.mode = .idle ∧ s.port = []

/-- The block can take a word: the configuration is not refused, nothing else has arrived, `MODE = IDLE`. -/
def State.ready (s : State) : Prop := s.cfg.legal = true ∧ s.outside = [] ∧ s.mode = .idle

end Sys2Proof.Machine
end

