-- ==== Sys2Proof/Certificates/Slice0/Obligations.lean ====
section
/-! DEFINITION. The statements for the provers. Each docstring says which rule of the spec it formalises; a clause
that rests on a choice of the model says so and names its log entry. -/

open Sys2Proof Sys2Proof.Machine

/-! ### Encoding -/

/-- The words 95_test_vectors section 3 writes out for its programs decode to the commands it names, and the
words of section 2.7 that it calls illegal are illegal (30_encoding R62 to R66). -/
def Obligations.KnownWordsDecode : Prop :=
  decode 0x00000000000000100000000000200001#128 = .command (.setupPll .a 32#32 0#20 1#20) ∧
  decode 0x00000000000000300002000000180041#128 = .command (.setupPll .b 24#32 2#20 3#20) ∧
  decode 0x000000000000002000010000002D0062#128 = .command (.setupMs 2#2 .b 45#32 1#20 2#20) ∧
  decode 0x00000000000000000000000000000713#128 = .command (.setupRdiv 1#2 7#3) ∧
  decode 0x0000000000000000000000D11A180054#128 = .command (.setFreq 1#2 .b 13703704#32) ∧
  decode 0x00000000000000000000000000000085#128 = .command (.enableOutputs true) ∧
  decode 0x00000000000000000000000000000006#128 = .illegal .reservedOpcode ∧
  decode 0x80000000000000100000000000200001#128 = .illegal .nonzeroUnusedBit

/-- 30_encoding R64: a word is the command of a row if and only if `(w & mask) = match`, that is when the row's
opcode is in `OP` and every field the row does not use is 0; and at most one row matches any word. -/
def Obligations.DecodeFollowsTheRows : Prop :=
  (∀ w o, (∃ i, decode w = .command i ∧ i.opcode = o) ↔ w &&& maskBits o = matchBits o) ∧
  (∀ w o o', w &&& maskBits o = matchBits o → w &&& maskBits o' = matchBits o' → o = o') ∧
  (∀ w, w &&& maskBits .setupPll = matchBits .setupPll ↔
    fieldOp w = 0x1#4 ∧ fieldCh w = 0#2 ∧ fieldEn w = 0#1 ∧ fieldRx w = 0#3 ∧
      fieldLowReserved w = 0#5 ∧ fieldHighReserved w = 0#40) ∧
  (∀ w, w &&& maskBits .setupMs = matchBits .setupMs ↔
    fieldOp w = 0x2#4 ∧ fieldEn w = 0#1 ∧ fieldRx w = 0#3 ∧
      fieldLowReserved w = 0#5 ∧ fieldHighReserved w = 0#40) ∧
  (∀ w, w &&& maskBits .setupRdiv = matchBits .setupRdiv ↔
    fieldOp w = 0x3#4 ∧ fieldPll w = 0#1 ∧ fieldEn w = 0#1 ∧ fieldLowReserved w = 0#5 ∧
      fieldArg w = 0#32 ∧ fieldNum w = 0#20 ∧ fieldDen w = 0#20 ∧ fieldHighReserved w = 0#40) ∧
  (∀ w, w &&& maskBits .setFreq = matchBits .setFreq ↔
    fieldOp w = 0x4#4 ∧ fieldEn w = 0#1 ∧ fieldRx w = 0#3 ∧ fieldLowReserved w = 0#5 ∧
      fieldNum w = 0#20 ∧ fieldDen w = 0#20 ∧ fieldHighReserved w = 0#40) ∧
  (∀ w, w &&& maskBits .enableOutputs = matchBits .enableOutputs ↔
    fieldOp w = 0x5#4 ∧ fieldCh w = 0#2 ∧ fieldPll w = 0#1 ∧ fieldRx w = 0#3 ∧
      fieldLowReserved w = 0#5 ∧ fieldArg w = 0#32 ∧ fieldNum w = 0#20 ∧ fieldDen w = 0#20 ∧
      fieldHighReserved w = 0#40)

/-- 30_encoding R62: a decoded command's operands are the bits of the word at the places of the table, unsigned
and neither scaled nor shifted, said by division on the word's number; and the reserved bits are 0. -/
def Obligations.OperandsSitAtTheirBits : Prop :=
  ∀ w i, decode w = .command i →
    (w.toNat / 2 ^ 11 % 2 ^ 5 = 0 ∧ w.toNat / 2 ^ 88 = 0) ∧
    match i with
    | .setupPll p mult num denom =>
      w.toNat % 2 ^ 4 = 1 ∧ (p = .b ↔ w.toNat / 2 ^ 6 % 2 = 1) ∧
        mult.toNat = w.toNat / 2 ^ 16 % 2 ^ 32 ∧ num.toNat = w.toNat / 2 ^ 48 % 2 ^ 20 ∧
        denom.toNat = w.toNat / 2 ^ 68 % 2 ^ 20
    | .setupMs ch p div num denom =>
      w.toNat % 2 ^ 4 = 2 ∧ ch.toNat = w.toNat / 2 ^ 4 % 4 ∧ (p = .b ↔ w.toNat / 2 ^ 6 % 2 = 1) ∧
        div.toNat = w.toNat / 2 ^ 16 % 2 ^ 32 ∧ num.toNat = w.toNat / 2 ^ 48 % 2 ^ 20 ∧
        denom.toNat = w.toNat / 2 ^ 68 % 2 ^ 20
    | .setupRdiv ch n =>
      w.toNat % 2 ^ 4 = 3 ∧ ch.toNat = w.toNat / 2 ^ 4 % 4 ∧ n.toNat = w.toNat / 2 ^ 8 % 8
    | .setFreq ch p f =>
      w.toNat % 2 ^ 4 = 4 ∧ ch.toNat = w.toNat / 2 ^ 4 % 4 ∧ (p = .b ↔ w.toNat / 2 ^ 6 % 2 = 1) ∧
        f.toNat = w.toNat / 2 ^ 16 % 2 ^ 32
    | .enableOutputs en => w.toNat % 2 ^ 4 = 5 ∧ (en = true ↔ w.toNat / 2 ^ 7 % 2 = 1)

/-- Decoding the word of a command gives the command back, for every command and every operand value. -/
def Obligations.DecodeOfEncode : Prop := ∀ i, decode (encode i) = .command i

/-- Every word that decodes is the word of its command: no two words are the same command, and no bit of a word is
dropped (30_encoding D3 "no word has two meanings" read the other way). -/
def Obligations.EncodeOfDecode : Prop := ∀ w i, decode w = .command i → encode i = w

/-- 30_encoding R66: which words are illegal, under which of its two heads, and that either way the word completes
with `ILLEGAL_COMMAND` and writes nothing. -/
def Obligations.IllegalWords : Prop :=
  (∀ w, decode w = .illegal .reservedOpcode ↔ fieldOp w = 0x0#4 ∨ 0x6 ≤ (fieldOp w).toNat) ∧
  (∀ w, decode w = .illegal .nonzeroUnusedBit ↔
    (1 ≤ (fieldOp w).toNat ∧ (fieldOp w).toNat ≤ 5) ∧ ∀ o, w &&& maskBits o ≠ matchBits o) ∧
  ∀ (s : State) w why, decode w = .illegal why → s.takeWord w = .next (s.completed 0x1#32)

/-! ### The Field Packer and the register bytes -/

/-- 40_field_packer R94, R95, with the mask of R93: P1 by its formula over the integers, reduced to 18 bits; P2 is
`(128*b) % c`, which the mask leaves whole for a denominator a command can supply; P3 is the denominator's low 20
bits. -/
def Obligations.PackGivesTheFields : Prop :=
  ∀ a b c : Nat, 1 ≤ c →
    ((pack a b c).p1.toNat : Int) = (128 * (a : Int) + ((128 * b / c : Nat) : Int) - 512) % 2 ^ 18 ∧
    (pack a b c).p2.toNat = 128 * b % c % 2 ^ 20 ∧
    (c ≤ 1048575 → (pack a b c).p2.toNat = 128 * b % c ∧ (pack a b c).p2.toNat < c) ∧
    (pack a b c).p3.toNat = c % 2 ^ 20

/-- The round-trip law on its domain, what the mask of P1 makes of it outside, `c*q + P2 = 128*b`, `q <= 127` and
`P3 = c`. The spec marks all of these as its own inferences (40_field_packer R92, R93 and R99, "[derived: ...]"). -/
def Obligations.UnpackOfPack : Prop :=
  ∀ a b c : Nat, b < c → c ≤ 1048575 →
    unpack (pack a b c) = ((a + 2044) % 2048 + 4, b, c) ∧
    (4 ≤ a → a ≤ 2051 → unpack (pack a b c) = (a, b, c)) ∧
    c * quotient b c + (pack a b c).p2.toNat = 128 * b ∧
    quotient b c ≤ 127 ∧ (pack a b c).p3.toNat = c

/-- A fraction `c/c` is encoded exactly as the next integer, in the same bytes (40_field_packer R100, which the spec
marks as its own inference). -/
def Obligations.PackOfEqualFraction : Prop :=
  (∀ a c : Nat, 1 ≤ c →
    quotient c c = 128 ∧ (pack a c c).p2 = 0#20 ∧
      (pack a c c).p1.toNat = ((128 * ((a : Int) + 1) - 512) % 2 ^ 18).toNat ∧
      blockBytes (pack a c c) = blockBytes (pack (a + 1) 0 c)) ∧
  pack 752 531208 531208 = { p1 := 0x17680#18, p2 := 0#20, p3 := 531208#20 } ∧
  blockBytes (pack 752 531208 531208) =
    [0x1B#8, 0x08#8, 0x01#8, 0x76#8, 0x80#8, 0x80#8, 0x00#8, 0x00#8]

/-- 30_encoding R67: the place of every bit of P1, P2 and P3 in the eight bytes, said by division; byte `i` goes to
`base + i`; and the bytes determine the fields. -/
def Obligations.BlockBytesLayout : Prop :=
  (∀ f : Packed, (blockBytes f).map BitVec.toNat =
    [ f.p3.toNat / 2 ^ 8 % 256, f.p3.toNat % 256, f.p1.toNat / 2 ^ 16, f.p1.toNat / 2 ^ 8 % 256,
      f.p1.toNat % 256, f.p3.toNat / 2 ^ 16 * 16 + f.p2.toNat / 2 ^ 16, f.p2.toNat / 2 ^ 8 % 256,
      f.p2.toNat % 256 ]) ∧
  (∀ (base : Nat) (f : Packed), blockWrites base f =
    List.zipWith (fun k x => Write.mk (BitVec.ofNat 8 (base + k)) x) (List.range 8) (blockBytes f)) ∧
  (∀ f g : Packed, blockBytes f = blockBytes g → f = g)

/-- 42_multisynth R118: bit 6 of the clock-control byte is set if and only if the numerator is 0, bit 5 if and
only if the source is PLL B, the rest is the base value (for a base with bits 6:5 clear, 30_encoding R69); with
the base 0x0F the four values of R118. -/
def Obligations.ClockControlByte : Prop :=
  (∀ cfg p num, cfg.legal = true →
    ((clkCtrl cfg p num).getLsbD 6 = decide (num = 0)) ∧
    ((clkCtrl cfg p num).getLsbD 5 = decide (p = .b)) ∧
    ∀ k, k ≠ 5 → k ≠ 6 → (clkCtrl cfg p num).getLsbD k = cfg.clkCtrlBase.getLsbD k) ∧
  (∀ cfg num, cfg.clkCtrlBase = 0x0F#8 → num ≠ 0 →
    clkCtrl cfg .a num = 0x0F#8 ∧ clkCtrl cfg .a 0 = 0x4F#8 ∧ clkCtrl cfg .b num = 0x2F#8 ∧
      clkCtrl cfg .b 0 = 0x6F#8)

/-- 30_encoding R70: bit 7 is 0, bits 6:4 the exponent, bits 3:2 are 0, bits 1:0 are `low`, which is the
channel's P1[17:16] or 0; and the address is 44, 52 or 60. -/
def Obligations.RdivByteLayout : Prop :=
  (∀ n low, (rdivByte n low).extractLsb' 7 1 = 0#1 ∧ (rdivByte n low).extractLsb' 4 3 = n ∧
    (rdivByte n low).extractLsb' 2 2 = 0#2 ∧ (rdivByte n low).extractLsb' 0 2 = low ∧
    (rdivByte n low).toNat = n.toNat * 16 + low.toNat) ∧
  (∀ cfg p1hi, (cfg.rdivLowBits = .msLayout → rdivLow cfg p1hi = p1hi) ∧
    (cfg.rdivLowBits = .zero → rdivLow cfg p1hi = 0#2)) ∧
  (∀ c, rdivAddr c = BitVec.ofNat 8 (msBase c + 2)) ∧
  rdivAddr .ch0 = 44#8 ∧ rdivAddr .ch1 = 52#8 ∧ rdivAddr .ch2 = 60#8

/-! ### The Frequency Resolver's arithmetic -/

/-- 44_resolver R134: the band table; no band below 4000 Hz or from 512,000 Hz on, where the exponent is 0. -/
def Obligations.StageFollowsTheBands : Prop :=
  (∀ f k : Nat, k ≤ 6 → 4000 * 2 ^ k ≤ f → f < 4000 * 2 ^ (k + 1) → stage f = 7 - k) ∧
  (∀ f : Nat, f < 4000 ∨ 512000 ≤ f → stage f = 0)

/-- 44_resolver R139: `Reduce` is the loop "while `den > 1048575`, halve both", whatever its operands. -/
def Obligations.ReduceIsTheHalvingLoop : Prop :=
  ∀ num den : Nat,
    reduce num den = if den > 1048575 then reduce (num / 2) (den / 2) else (num, den)

/-- 44_resolver R140 (a) to (f), with its two examples; the spec marks the rule as its own inference. -/
def Obligations.ReduceProperties : Prop :=
  (∀ num den : Nat, num < den → ∃ h : Nat,
    den / 2 ^ h ≤ 1048575 ∧ (∀ k, k < h → 1048575 < den / 2 ^ k) ∧
    reduce num den = (num / 2 ^ h, den / 2 ^ h) ∧
    1 ≤ den / 2 ^ h ∧ (1 ≤ h → 524288 ≤ den / 2 ^ h) ∧
    num / 2 ^ h ≤ den / 2 ^ h ∧ (den < 2 ^ 32 → h ≤ 12)) ∧
  reduce (800000000 % 1062417) 1062417 = (531208, 531208) ∧
  800000000 % 2259887 ≠ 0 ∧ (reduce (800000000 % 2259887) 2259887).1 = 0

/-- What SET_FREQ resolves to is within the packer's contract: `1 <= den <= 1,048,575` and `num <= den`
(40_field_packer R91, 44_resolver R140 (c), (d)), the exponent fits its three bits, and the scaled frequency of a
band lies in `[512,000, 1,024,000)` (R136, the spec's own inference). -/
def Obligations.ResolveIsWithinBounds : Prop :=
  ∀ fvco f : Nat, 1 ≤ f →
    1 ≤ (resolve fvco f).den ∧ (resolve fvco f).den ≤ 1048575 ∧
    (resolve fvco f).num ≤ (resolve fvco f).den ∧ (resolve fvco f).exponent ≤ 7 ∧
    (resolve fvco f).div ≤ fvco ∧
    (4000 ≤ f → f < 512000 → 512000 ≤ f * 2 ^ stage f ∧ f * 2 ^ stage f < 1024000)

/-! ### Reset -/

/-- 10_state R32: the value of every piece of state after the construction with any configuration; nothing is
known of the bank. `State.reset` is the construction with its own configuration. -/
def Obligations.ResetValues : Prop :=
  (∀ cfg, (State.construct cfg).xtal = cfg.xtalHz ∧ (State.construct cfg).busaddr = cfg.busAddr ∧
    (∀ p, (State.construct cfg).vco p = 0#65) ∧ (∀ c, (State.construct cfg).p1hi c = 0#2) ∧
    (State.construct cfg).status = 0#32 ∧ (State.construct cfg).mode = .idle ∧
    ∀ a : Addr, (State.construct cfg).bank.read a.toNat = none) ∧
  State.reset = State.construct State.reset.cfg

/-- The invariant holds after reset, and after the construction with any configuration that is not refused. -/
def Obligations.ResetMeetsTheInvariant : Prop :=
  State.reset.Inv ∧ ∀ cfg, cfg.legal = true → (State.construct cfg).Inv

/-- 70_reset R177, R176: a reset, in `IDLE` or during a command, gives the state of 10_state R32; the rest of the
command's list is abandoned, no write is issued, and the writes already answered stay in the bank. That the
waiting words, the answers not consumed, the log and the responses stay is the model's choice (log 6). -/
def Obligations.ResetDuringCommand : Prop :=
  ∀ (s : State) (cfg : Config) (os : List Outside),
    s.cfg.legal = true → cfg.legal = true → s.outside = .reset cfg :: os →
    step s = .next { State.construct cfg with
      port := s.port, bus := s.bus, outside := os, log := s.log, bank := s.bank,
      responses := s.responses }

/-! ### What each command does -/

/-- 41_pll R107, R108: the eight bytes at the PLL's base, then the reset write, whichever PLL it is; with all
nine writes answered `OK` the command completes with `STATUS = 0x0090` and records the VCO frequency, and nothing
else changes; without nine `OK`s no VCO register changes. -/
def Obligations.SetupPllResult : Prop :=
  ∀ (p : Pll) (mult : BitVec 32) (num denom : BitVec 20) (s : State) (answers : List Answer),
    denom ≠ 0#20 →
    let f := pack mult.toNat num.toNat denom.toNat
    let base := match p with | .a => 26 | .b => 34
    let W := List.zipWith (fun k x => Write.mk (BitVec.ofNat 8 (base + k)) x) (List.range 8)
      (blockBytes f) ++ [⟨s.cfg.pllResetAddr, s.cfg.pllResetValue⟩]
    let v := s.xtal.toNat * (mult.toNat * denom.toNat + num.toNat) / denom.toNat
    W.length = 9 ∧
    (s.bus = List.replicate 9 .ok ++ answers →
      exec (.setupPll p mult num denom) s =
        .next (((s.wrote W answers).setVco p (BitVec.ofNat 65 v)).completed 0x90#32)) ∧
    (¬ List.replicate 9 Answer.ok <+: s.bus →
      ∃ t, exec (.setupPll p mult num denom) s = .next t ∧ ∀ q, t.vco q = s.vco q)

/-- 41_pll R109: the record is the exact floor for every encodable operand, never truncated to a width, and the
other PLL's record is unchanged. -/
def Obligations.VcoRecordIsExact : Prop :=
  ∀ (p : Pll) (mult : BitVec 32) (num denom : BitVec 20) (s : State) (answers : List Answer),
    denom ≠ 0#20 → s.bus = List.replicate 9 .ok ++ answers →
    ∃ t, exec (.setupPll p mult num denom) s = .next t ∧
      (t.vco p).toNat = s.xtal.toNat * (mult.toNat * denom.toNat + num.toNat) / denom.toNat ∧
      ∀ q, q ≠ p → t.vco q = s.vco q

/-- 42_multisynth R117: the eight bytes at `MS_BASE(ch)`, then the clock-control byte; with all nine writes
answered `OK` the command completes with `STATUS = 0x0090` and P1HI[ch] takes P1[17:16]; nothing else changes. -/
def Obligations.SetupMsResult : Prop :=
  ∀ (ch : BitVec 2) (c : Channel) (p : Pll) (div : BitVec 32) (num denom : BitVec 20) (s : State)
    (answers : List Answer), channelOf ch = some c → denom ≠ 0#20 →
    let f := pack div.toNat num.toNat denom.toNat
    let W := List.zipWith (fun k x => Write.mk (BitVec.ofNat 8 (42 + 8 * ch.toNat + k)) x)
      (List.range 8) (blockBytes f) ++ [⟨clkCtrlAddr s.cfg c, clkCtrl s.cfg p num.toNat⟩]
    W.length = 9 ∧
    (s.bus = List.replicate 9 .ok ++ answers →
      exec (.setupMs ch p div num denom) s =
        .next (((s.wrote W answers).setP1hi c (BitVec.ofNat 2 (f.p1.toNat / 2 ^ 16))).completed
          0x90#32))

/-- 43_rdiv R127: one write of the R-divider byte, its low bits as `RDIV_LOW_BITS` says; `STATUS = 0x0010`, and
no other state changes. -/
def Obligations.SetupRdivResult : Prop :=
  ∀ (ch : BitVec 2) (c : Channel) (n : BitVec 3) (s : State) (answers : List Answer),
    channelOf ch = some c → s.bus = .ok :: answers →
    let low := match s.cfg.rdivLowBits with | .msLayout => s.p1hi c | .zero => 0#2
    exec (.setupRdiv ch n) s =
      .next ((s.wrote [⟨BitVec.ofNat 8 (42 + 8 * ch.toNat + 2), rdivByte n low⟩] answers).completed
        0x10#32)

/-- 44_resolver R141: the ten writes of SET_FREQ, computed by its steps; with all ten answered `OK` the command
completes with `STATUS = 0x00A0` and P1HI[ch] takes P1[17:16]; nothing else changes. The first nine writes are those
of the Multisynth Configurator, the last that of the R-Divider Configurator. -/
def Obligations.SetFreqResult : Prop :=
  ∀ (ch : BitVec 2) (c : Channel) (p : Pll) (f : BitVec 32) (s : State) (answers : List Answer),
    channelOf ch = some c → f ≠ 0#32 →
    let e := stage f.toNat
    let fs := f.toNat * 2 ^ e
    let fvco := (s.vco p).toNat
    let r := reduce (fvco % fs) fs
    let k := pack (fvco / fs) r.1 r.2
    let high := BitVec.ofNat 2 (k.p1.toNat / 2 ^ 16)
    let low := match s.cfg.rdivLowBits with | .msLayout => high | .zero => 0#2
    let base := 42 + 8 * ch.toNat
    let W := List.zipWith (fun j x => Write.mk (BitVec.ofNat 8 (base + j)) x) (List.range 8)
      (blockBytes k) ++ [⟨clkCtrlAddr s.cfg c, clkCtrl s.cfg p r.1⟩] ++
      [⟨BitVec.ofNat 8 (base + 2), rdivByte (BitVec.ofNat 3 e) low⟩]
    W.length = 10 ∧
    W.take 9 = (msPlan s.cfg c p (fvco / fs) r.1 r.2).writes ∧
    W.drop 9 = [rdivWrite s.cfg c (BitVec.ofNat 3 e) high] ∧
    (s.bus = List.replicate 10 .ok ++ answers →
      exec (.setFreq ch p f) s =
        .next (((s.wrote W answers).setP1hi c high).completed 0xA0#32))

/-- 45_output_enable R152: one write of 0x00 or 0xFF to `OE_ADDR`; `STATUS = 0x0010`, and no other state
changes. -/
def Obligations.EnableOutputsResult : Prop :=
  ∀ (en : Bool) (s : State) (answers : List Answer), s.bus = .ok :: answers →
    exec (.enableOutputs en) s =
      .next ((s.wrote [⟨s.cfg.oeAddr, if en then 0x00#8 else 0xFF#8⟩] answers).completed 0x10#32)

/-- 44_resolver R143: SET_FREQ on an unconfigured PLL proceeds. The divider and the numerator are 0, `den` is the
reduced scaled frequency, P1 is 0x3FE00, integer mode is set, and no status code reports it. -/
def Obligations.SetFreqOnUnconfiguredPll : Prop :=
  ∀ (ch : BitVec 2) (c : Channel) (p : Pll) (f : BitVec 32) (s : State) (answers : List Answer),
    channelOf ch = some c → f ≠ 0#32 → s.vco p = 0#65 →
    s.bus = List.replicate 10 .ok ++ answers →
    let fs := f.toNat * 2 ^ stage f.toNat
    resolve (s.vco p).toNat f.toNat =
      { exponent := stage f.toNat, div := 0, num := 0, den := (reduce 0 fs).2 } ∧
    (pack 0 0 (reduce 0 fs).2).p1 = 0x3FE00#18 ∧
    ∃ t, exec (.setFreq ch p f) s = .next t ∧ t.status = 0xA0#32 ∧ t.p1hi c = 3#2 ∧
      ∃ es, t.log = s.log ++ es ∧
        ∃ e ∈ es, e.addr = clkCtrlAddr s.cfg c ∧ e.data = clkCtrl s.cfg p 0 ∧
          e.data.getLsbD 6 = true

/-- 44_resolver R141: SET_FREQ is the Multisynth Configurator and then the R-Divider Configurator. Where the
divider fits the `ARG` field, SETUP_MS with the resolved operands and then SETUP_RDIV with the exponent leave the
same log, bank, VCO and P1HI registers and the same answers as SET_FREQ. -/
def Obligations.SetFreqIsSetupMsThenSetupRdiv : Prop :=
  ∀ (ch : BitVec 2) (c : Channel) (p : Pll) (f : BitVec 32) (s : State) (answers : List Answer),
    channelOf ch = some c → f ≠ 0#32 →
    s.bus = List.replicate 10 .ok ++ answers →
    let r := resolve (s.vco p).toNat f.toNat
    r.div < 2 ^ 32 →
    ∃ t u v, exec (.setFreq ch p f) s = .next t ∧
      exec (.setupMs ch p (BitVec.ofNat 32 r.div) (BitVec.ofNat 20 r.num) (BitVec.ofNat 20 r.den)) s
        = .next u ∧
      exec (.setupRdiv ch (BitVec.ofNat 3 r.exponent)) u = .next v ∧
      t.log = v.log ∧ t.bank = v.bank ∧ t.bus = v.bus ∧ (∀ q, t.vco q = v.vco q) ∧
      ∀ d, t.p1hi d = v.p1hi d

/-- 42_multisynth R121, R119 and 44_resolver R141: after SETUP_MS the image of `MS_BASE(ch)+2` is P1HI[ch] with
bits 7:2 clear, so an exponent there is lost; after SET_FREQ it holds the exponent and the low bits. The
clock-control register is taken to lie elsewhere, since its address is an open parameter. -/
def Obligations.RdivFieldAfterMultisynthWrite : Prop :=
  (∀ (ch : BitVec 2) (c : Channel) (p : Pll) (div : BitVec 32) (num denom : BitVec 20) (s : State)
    (answers : List Answer), channelOf ch = some c → denom ≠ 0#20 →
    clkCtrlAddr s.cfg c ≠ rdivAddr c → s.bus = List.replicate 9 .ok ++ answers →
    ∃ t, exec (.setupMs ch p div num denom) s = .next t ∧
      t.bank.read (rdivAddr c).toNat = some ((t.p1hi c).zeroExtend 8)) ∧
  (∀ (ch : BitVec 2) (c : Channel) (p : Pll) (f : BitVec 32) (s : State) (answers : List Answer),
    channelOf ch = some c → f ≠ 0#32 → s.bus = List.replicate 10 .ok ++ answers →
    ∃ t, exec (.setFreq ch p f) s = .next t ∧
      t.bank.read (rdivAddr c).toNat =
        some (rdivByte (BitVec.ofNat 3 (stage f.toNat)) (rdivLow s.cfg (t.p1hi c))))

/-! ### Faults -/

/-- 60_exceptions R158: `ILLEGAL_OPERAND` in its two cases, before any write: only `STATUS`, `MODE` and the
response change. -/
def Obligations.IllegalOperandIsRaised : Prop :=
  (∀ s p div num denom, exec (.setupMs 3#2 p div num denom) s = .next (s.completed 0x2#32)) ∧
  (∀ s n, exec (.setupRdiv 3#2 n) s = .next (s.completed 0x2#32)) ∧
  (∀ s p f, exec (.setFreq 3#2 p f) s = .next (s.completed 0x2#32)) ∧
  (∀ s p mult num, exec (.setupPll p mult num 0#20) s = .next (s.completed 0x2#32)) ∧
  (∀ s ch p div num, exec (.setupMs ch p div num 0#20) s = .next (s.completed 0x2#32))

/-- 60_exceptions R159: SET_FREQ of 0 Hz on a legal channel ends with `ZERO_FREQUENCY` before any write. -/
def Obligations.ZeroFrequencyIsRaised : Prop :=
  ∀ s ch p, ch ≠ 3#2 → exec (.setFreq ch p 0#32) s = .next (s.completed 0x3#32)

/-- 60_exceptions R161, R164: a write answered `ERR` ends the command at once with `BUS_ERROR`, the number of
writes answered `OK` and the address; the writes before it stay, no later write is issued, the update is not
applied, and the address becomes unknown. For every command, whichever of its writes fails. -/
def Obligations.BusErrorIsPrecise : Prop :=
  ∀ (i : Instr) (s : State) (pl : Plan) (pre : List Write) (w : Write) (post : List Write)
    (answers : List Answer), planOf i s = .writes pl → pl.writes = pre ++ w :: post →
    s.bus = List.replicate pre.length .ok ++ .err :: answers →
    exec i s = .next (s.failedAt pre w answers)

/-- 60_exceptions R156, row by row: what raises each code, its cause, and the `NWR` and `FADDR` recorded with it. No
other code is produced. -/
def Obligations.CompletionCodes : Prop :=
  (∀ (s : State) w why, decode w = .illegal why → s.takeWord w = .next (s.completed 0x1#32)) ∧
  ∀ (i : Instr) (s t : State), exec i s = .next t → t.mode = .idle →
    (statusCode t.status = 0#4 ∧ statusNwr t.status = BitVec.ofNat 4 (plannedWrites (planOf i s)).length ∧
      statusFaddr t.status = 0#8 ∧ i.wellFormed = true ∧
      t.log = s.log ++ okEntries s.busaddr (plannedWrites (planOf i s))) ∨
    (t.status = 0x2#32 ∧ t.log = s.log ∧
      match i with
      | .setupPll _ _ _ denom => denom = 0#20
      | .setupMs ch _ _ _ denom => ch = 3#2 ∨ denom = 0#20
      | .setupRdiv ch _ => ch = 3#2
      | .setFreq ch _ _ => ch = 3#2
      | .enableOutputs _ => False) ∨
    (t.status = 0x3#32 ∧ t.log = s.log ∧ ∃ ch p, ch ≠ 3#2 ∧ i = .setFreq ch p 0#32) ∨
    (statusCode t.status = 4#4 ∧ i.wellFormed = true ∧
      ∃ es e, t.log = s.log ++ es ++ [e] ∧ e.answer = .err ∧ e.addr = statusFaddr t.status ∧
        statusNwr t.status = BitVec.ofNat 4 es.length ∧ ∀ x ∈ es, x.answer = .ok)

/-- 60_exceptions R157: a word that does not decode completes with `ILLEGAL_COMMAND` and writes nothing; it is
consumed from the port. -/
def Obligations.IllegalCommandIsRaised : Prop :=
  ∀ (s : State) (w : CmdWord) (ws : List CmdWord) (why : Illegal),
    s.ready → s.port = w :: ws → decode w = .illegal why →
    step s = .next (({ s with port := ws }).completed 0x1#32)

/-- 10_state R27: the fields of the completion word, and its reserved bits. -/
def Obligations.StatusWordFields : Prop :=
  ∀ c n a, n < 16 →
    statusCode (statusWord c n a) = codeBits c ∧ (statusNwr (statusWord c n a)).toNat = n ∧
    statusFaddr (statusWord c n a) = a ∧ statusReserved (statusWord c n a) = 0#16 ∧
    (statusWord c n a).toNat = a.toNat * 256 + n * 16 + (codeBits c).toNat

/-! ### Frames -/

/-- What a command leaves unchanged, whether it completes or waits for an answer: the configuration, `XTAL` and
`BUSADDR` (10_state R23), every VCO register but SETUP_PLL's own (R24), every P1HI but that of the channel of a
SETUP_MS or SET_FREQ (R26), and every byte of the bank but those the command's writes name. -/
def Obligations.ExecFrame : Prop :=
  ∀ (i : Instr) (s t : State), exec i s = .next t →
    t.cfg = s.cfg ∧ t.xtal = s.xtal ∧ t.busaddr = s.busaddr ∧ t.port = s.port ∧
    t.outside = s.outside ∧
    (∀ p, (∀ mult num denom, i ≠ .setupPll p mult num denom) → t.vco p = s.vco p) ∧
    (∀ c, (∀ ch p div num denom, channelOf ch = some c → i ≠ .setupMs ch p div num denom) →
      (∀ ch p f, channelOf ch = some c → i ≠ .setFreq ch p f) → t.p1hi c = s.p1hi c) ∧
    (∀ a : Addr, a ∉ (plannedWrites (planOf i s)).map Write.addr →
      t.bank.read a.toNat = s.bank.read a.toNat)

/-- The addresses a command writes, in order, are a beginning of its row of the table of 20_memory R42 (which the
spec marks as its own inference), the whole row when the command ends `OK`; an ill-formed command writes none. -/
def Obligations.WritesOnlyItsAddresses : Prop :=
  ∀ (i : Instr) (s t : State), exec i s = .next t → ∃ es, t.log = s.log ++ es ∧
    es.map LogEntry.addr <+: addressesOf s.cfg i ∧
    (i.wellFormed = false → es = []) ∧
    (i.wellFormed = true → t.mode = .idle → statusCode t.status = 0#4 →
      es.map LogEntry.addr = addressesOf s.cfg i)

/-- 20_memory R50 (the spec's own inference): the values a command writes depend only on its operands, the
parameters, `VCO[p]` (SET_FREQ) and `P1HI[ch]` (SETUP_RDIV under `MS_LAYOUT`); and after a command, whatever its
outcome, the same command plans the same list again. -/
def Obligations.RepeatedCommandWritesTheSame : Prop :=
  (∀ (i : Instr) (s t : State), s.cfg = t.cfg →
    (∀ ch p f, i = .setFreq ch p f → s.vco p = t.vco p) →
    (∀ ch c n, i = .setupRdiv ch n → channelOf ch = some c → s.cfg.rdivLowBits = .msLayout →
      s.p1hi c = t.p1hi c) →
    plannedWrites (planOf i s) = plannedWrites (planOf i t)) ∧
  (∀ (i : Instr) (s t : State), exec i s = .next t → planOf i t = planOf i s)

/-! ### Steps -/

/-- When the word at the head of the command port decodes to a command, the step of a ready block takes the word
and is exactly `exec` of that command (60_exceptions R162, R170). -/
def Obligations.StepRunsTheDecodedCommand : Prop :=
  ∀ (s : State) (w : CmdWord) (ws : List CmdWord) (i : Instr),
    s.ready → s.port = w :: ws → decode w = .command i →
    step s = exec i { s with port := ws }

/-- 20_memory R44: while the bank has not answered a write the block waits with it and issues no other: with `OK`
answers for the writes `pre` only, the command stays `BUSY` at the write after them, `STATUS` and the registers
are as before, and a step with no further answer changes nothing. -/
def Obligations.BusyWaitsForTheAnswer : Prop :=
  ∀ (i : Instr) (s : State) (pl : Plan) (pre : List Write) (w : Write) (post : List Write),
    planOf i s = .writes pl → pl.writes = pre ++ w :: post → s.bus = List.replicate pre.length .ok →
    exec i s = .next (s.waiting pre (w :: post) pl.update) ∧
    (s.cfg.legal = true → s.outside = [] →
      step (s.waiting pre (w :: post) pl.update) = .next (s.waiting pre (w :: post) pl.update))

/-- When the bank's answers arrive does not matter: a command that is given part of them, waits, and is given the
rest ends as one that is given all at once (20_memory R44, R52; that a step consumes all answers present is the
model's granularity, log 3). -/
def Obligations.AnswerArrivalDoesNotMatter : Prop :=
  ∀ (i : Instr) (s : State) (xs ys : List Answer) (t : State), s.cfg.legal = true → s.outside = [] →
    exec i { s with bus := xs } = .next t →
    exec i { s with bus := xs ++ ys } =
      match t.mode with
      | .busy _ => step { t with bus := ys }
      | .idle => .next { t with bus := t.bus ++ ys }

/-- 60_exceptions R170: words are taken only in `IDLE`, one at a time, in arrival order; otherwise a step leaves
the port as it is. -/
def Obligations.PortIsServedInOrderInIdle : Prop :=
  ∀ (s t : State), step s = .next t →
    t.port = s.port ∨ (s.mode = .idle ∧ s.outside = [] ∧ ∃ w, s.port = w :: t.port)

/-- 20_memory R44, R52: a step only appends to the write log; what it appends carries the block's bus address, and
takes its answers from the front of the bank's answers, in order, one per write. -/
def Obligations.LogGrowsByAnsweredWrites : Prop :=
  ∀ (s t : State), step s = .next t → ∃ es, t.log = s.log ++ es ∧ (∀ e ∈ es, e.dev = s.busaddr) ∧
    s.bus = es.map LogEntry.answer ++ t.bus

/-- 10_state R23: no command writes `XTAL` or `BUSADDR`; only the construction of the Device sets them, to the
configured values. -/
def Obligations.XtalAndBusaddrAreFixed : Prop :=
  ∀ (s t : State), step s = .next t →
    (t.xtal = s.xtal ∧ t.busaddr = s.busaddr ∧ t.cfg = s.cfg) ∨
    ∃ cfg os, s.outside = .reset cfg :: os ∧ t.xtal = cfg.xtalHz ∧ t.busaddr = cfg.busAddr ∧ t.cfg = cfg

/-- 10_state R24: only SETUP_PLL writes `VCO[p]`. A step that changes it took a SETUP_PLL of `p` from the port,
completed one in progress, or was a reset. -/
def Obligations.OnlySetupPllChangesVco : Prop :=
  ∀ (s t : State) (p : Pll), step s = .next t → t.vco p ≠ s.vco p →
    (∃ cfg os, s.outside = .reset cfg :: os) ∨
    (∃ f v, s.mode = .busy f ∧ f.update = .recordVco p v ∧ t.vco p = v) ∨
    (s.mode = .idle ∧ ∃ w ws mult num denom,
      s.port = w :: ws ∧ decode w = .command (.setupPll p mult num denom))

/-- 10_state R26: `P1HI[ch]` is written by SETUP_MS and SET_FREQ on `ch` alone (and reset). -/
def Obligations.OnlyMultisynthWritesChangeP1hi : Prop :=
  ∀ (s t : State) (c : Channel), step s = .next t → t.p1hi c ≠ s.p1hi c →
    (∃ cfg os, s.outside = .reset cfg :: os) ∨
    (∃ f v, s.mode = .busy f ∧ f.update = .recordP1hi c v ∧ t.p1hi c = v) ∨
    (s.mode = .idle ∧ ∃ w ws ch, s.port = w :: ws ∧ channelOf ch = some c ∧
      ((∃ p div num denom, decode w = .command (.setupMs ch p div num denom)) ∨
        ∃ p f, decode w = .command (.setFreq ch p f)))

/-- When a step goes on: always, but for a configuration that is refused (30_encoding R69), in force or brought by
a reset, and for a foreign write while `BUSY` (20_memory R57). It never faults. -/
def Obligations.StepGoesOnUnlessRefused : Prop :=
  ∀ s : State,
    ((∃ t, step s = .next t) ↔
      (s.cfg.legal = true ∧
        (∀ cfg os, s.outside = .reset cfg :: os → cfg.legal = true) ∧
        (∀ os f, s.outside = .foreignWrite :: os → s.mode ≠ .busy f))) ∧
    (step s = .refused .illegalConfiguration ↔
      (s.cfg.legal = false ∨ ∃ cfg os, s.outside = .reset cfg :: os ∧ cfg.legal = false)) ∧
    (step s = .refused .interleavedWrite ↔
      (s.cfg.legal = true ∧ ∃ os f, s.outside = .foreignWrite :: os ∧ s.mode = .busy f))

/-- A foreign write in `IDLE` is the host's right and changes nothing of the block (60_exceptions R170,
20_memory R56); that it leaves the bank image too is R51's definition of the image (log 7). -/
def Obligations.ForeignWriteInIdle : Prop :=
  ∀ (s : State) (os : List Outside), s.cfg.legal = true → s.mode = .idle → s.outside = .foreignWrite :: os →
    step s = .next { s with outside := os }

/-! ### Invariants and runs -/

/-- Every step keeps the invariant, from every state that meets it: the configuration stays legal, `XTAL` and
`BUSADDR` stay the configured ones, `STATUS` and the responses stay words of 10_state R27, a command in progress
stays within bounds, and the bank stays the image of the log (20_memory R51) in canonical form. -/
def Obligations.StepKeepsTheInvariant : Prop :=
  ∀ (s t : State), s.Inv → step s = .next t → t.Inv

/-- With an answer for every write that is left, one step completes a command: the one at the head of the port of a
ready block, or the one in progress, and the completion word is returned. 70_reset R186 says that a command is
finished once its last transaction is answered; that this takes ONE step is the model's granularity (log 3), and the
answers that are there are its input list (log 4). -/
def Obligations.AnsweredCommandCompletes : Prop :=
  (∀ (s : State) (w : CmdWord) (ws : List CmdWord),
    s.ready → s.port = w :: ws → 10 ≤ s.bus.length →
    ∃ t, step s = .next t ∧ t.mode = .idle ∧ t.port = ws ∧ t.responses = s.responses ++ [t.status]) ∧
  (∀ (s : State) (f : Flight),
    s.cfg.legal = true → s.outside = [] → s.mode = .busy f → f.rest.length ≤ s.bus.length →
    ∃ t, step s = .next t ∧ t.mode = .idle ∧ t.port = s.port ∧
      t.responses = s.responses ++ [t.status])

/-- From every ready state with answers enough, as many steps as there are words end the run of the waiting command
words, with one response per word. 60_exceptions R171 says that the run ends when the last command has ended; that a
command is one step is the model's granularity (log 3), the answers are its input list (log 4), and the port and the
responses are its lists without a bound (log 13). -/
def Obligations.CommandListRunsToItsEnd : Prop :=
  ∀ s : State, s.ready → 10 * s.port.length ≤ s.bus.length →
    ∃ t, Host.Core.run Sys2Proof.core s.port.length s = .next t ∧ t.runEnded ∧
      t.responses.length = s.responses.length + s.port.length

/-! ### The assembler -/

/-- 30_encoding R75: the two pseudo-instructions are the commands with the fraction `0, 1`. -/
def Obligations.PseudoInstructions : Prop :=
  (∀ p m, assembleOperands .setupPll [.pll p, .number m] =
    assembleOperands .setupPll [.pll p, .number m, .number 0, .number 1]) ∧
  (∀ ch p v, assembleOperands .setupMs [.number ch, .pll p, .number v] =
    assembleOperands .setupMs [.number ch, .pll p, .number v, .number 0, .number 1])

/-- 30_encoding R74: each line of the syntax encodes its command when every operand fits its field, and is an
error otherwise. -/
def Obligations.AssemblerSyntax : Prop :=
  (∀ p m n d, assembleOperands .setupPll [.pll p, .number m, .number n, .number d] =
    if m < 2 ^ 32 ∧ n < 2 ^ 20 ∧ d < 2 ^ 20 then
      .command (.setupPll p (BitVec.ofNat 32 m) (BitVec.ofNat 20 n) (BitVec.ofNat 20 d))
    else .error .doesNotFit) ∧
  (∀ ch p v n d, assembleOperands .setupMs [.number ch, .pll p, .number v, .number n, .number d] =
    if ch < 4 ∧ v < 2 ^ 32 ∧ n < 2 ^ 20 ∧ d < 2 ^ 20 then
      .command (.setupMs (BitVec.ofNat 2 ch) p (BitVec.ofNat 32 v) (BitVec.ofNat 20 n)
        (BitVec.ofNat 20 d))
    else .error .doesNotFit) ∧
  (∀ ch n, assembleOperands .setupRdiv [.number ch, .number n] =
    if ch < 4 ∧ n < 8 then .command (.setupRdiv (BitVec.ofNat 2 ch) (BitVec.ofNat 3 n))
    else .error .doesNotFit) ∧
  (∀ ch p f, assembleOperands .setFreq [.number ch, .pll p, .number f] =
    if ch < 4 ∧ f < 2 ^ 32 then .command (.setFreq (BitVec.ofNat 2 ch) p (BitVec.ofNat 32 f))
    else .error .doesNotFit) ∧
  (∀ e, assembleOperands .enableOutputs [.number e] =
    if e < 2 then .command (.enableOutputs (decide (e = 1))) else .error .doesNotFit)
end

