-- ==== Sys2Proof/Laws/Decode.lean ====
section
/-! SUPPORT. The command word and its ten fields (30_encoding R62): a word built from fields has those fields, and
a word is determined by its fields. -/

namespace Sys2Proof

section
variable (op : BitVec 4) (ch : BitVec 2) (pll en : BitVec 1) (rx : BitVec 3) (arg : BitVec 32)
  (num den : BitVec 20)

/-- The number of a word built from fields, each at its place (30_encoding R62). -/
theorem cmdWord_toNat :
    (cmdWord op ch pll en rx arg num den).toNat =
      op.toNat + 2 ^ 4 * ch.toNat + 2 ^ 6 * pll.toNat + 2 ^ 7 * en.toNat + 2 ^ 8 * rx.toNat +
        2 ^ 16 * arg.toNat + 2 ^ 48 * num.toNat + 2 ^ 68 * den.toNat := by
  show BitVec.toNat (0#40 ++ den ++ num ++ arg ++ 0#5 ++ rx ++ en ++ pll ++ ch ++ op :
    BitVec (40 + 20 + 20 + 32 + 5 + 3 + 1 + 1 + 2 + 4)) = _
  simp only [BitVec.toNat_append, Nat.shiftLeft_eq]
  have := op.isLt
  have := ch.isLt
  have := pll.isLt
  have := en.isLt
  have := rx.isLt
  have := arg.isLt
  have := num.isLt
  have := den.isLt
  simp only [Nat.mul_comm _ (2 ^ _)]
  iterate 9 rw [← Nat.two_pow_add_eq_or_of_lt (by omega)]
  simp only [BitVec.toNat_ofNat]
  omega

@[simp] theorem fieldOp_cmdWord : fieldOp (cmdWord op ch pll en rx arg num den) = op := by
  apply BitVec.eq_of_toNat_eq
  simp only [fieldOp, BitVec.extractLsb'_toNat, Nat.shiftRight_eq_div_pow, cmdWord_toNat]
  omega

@[simp] theorem fieldCh_cmdWord : fieldCh (cmdWord op ch pll en rx arg num den) = ch := by
  apply BitVec.eq_of_toNat_eq
  simp only [fieldCh, BitVec.extractLsb'_toNat, Nat.shiftRight_eq_div_pow, cmdWord_toNat]
  omega

@[simp] theorem fieldPll_cmdWord : fieldPll (cmdWord op ch pll en rx arg num den) = pll := by
  apply BitVec.eq_of_toNat_eq
  simp only [fieldPll, BitVec.extractLsb'_toNat, Nat.shiftRight_eq_div_pow, cmdWord_toNat]
  omega

@[simp] theorem fieldEn_cmdWord : fieldEn (cmdWord op ch pll en rx arg num den) = en := by
  apply BitVec.eq_of_toNat_eq
  simp only [fieldEn, BitVec.extractLsb'_toNat, Nat.shiftRight_eq_div_pow, cmdWord_toNat]
  omega

@[simp] theorem fieldRx_cmdWord : fieldRx (cmdWord op ch pll en rx arg num den) = rx := by
  apply BitVec.eq_of_toNat_eq
  simp only [fieldRx, BitVec.extractLsb'_toNat, Nat.shiftRight_eq_div_pow, cmdWord_toNat]
  omega

@[simp] theorem fieldLowReserved_cmdWord :
    fieldLowReserved (cmdWord op ch pll en rx arg num den) = 0#5 := by
  apply BitVec.eq_of_toNat_eq
  simp only [fieldLowReserved, BitVec.extractLsb'_toNat, Nat.shiftRight_eq_div_pow, cmdWord_toNat,
    BitVec.toNat_ofNat]
  omega

@[simp] theorem fieldArg_cmdWord : fieldArg (cmdWord op ch pll en rx arg num den) = arg := by
  apply BitVec.eq_of_toNat_eq
  simp only [fieldArg, BitVec.extractLsb'_toNat, Nat.shiftRight_eq_div_pow, cmdWord_toNat]
  omega

@[simp] theorem fieldNum_cmdWord : fieldNum (cmdWord op ch pll en rx arg num den) = num := by
  apply BitVec.eq_of_toNat_eq
  simp only [fieldNum, BitVec.extractLsb'_toNat, Nat.shiftRight_eq_div_pow, cmdWord_toNat]
  omega

@[simp] theorem fieldDen_cmdWord : fieldDen (cmdWord op ch pll en rx arg num den) = den := by
  apply BitVec.eq_of_toNat_eq
  simp only [fieldDen, BitVec.extractLsb'_toNat, Nat.shiftRight_eq_div_pow, cmdWord_toNat]
  omega

@[simp] theorem fieldHighReserved_cmdWord :
    fieldHighReserved (cmdWord op ch pll en rx arg num den) = 0#40 := by
  apply BitVec.eq_of_toNat_eq
  simp only [fieldHighReserved, BitVec.extractLsb'_toNat, Nat.shiftRight_eq_div_pow, cmdWord_toNat,
    BitVec.toNat_ofNat]
  omega

end

/-- Two words agree on the bits of a field they share. -/
theorem getLsbD_eq_of_field_eq {v w : CmdWord} {start len i : Nat}
    (h : v.extractLsb' start len = w.extractLsb' start len) (hi : start ≤ i) (hi' : i < start + len) :
    v.getLsbD i = w.getLsbD i := by
  have hb := congrArg (fun x => x.getLsbD (i - start)) h
  have hlt : i - start < len := by omega
  have heq : start + (i - start) = i := by omega
  simpa [BitVec.getLsbD_extractLsb', hlt, heq] using hb

/-- Two words with the same ten fields are the same word (30_encoding R62: the fields cover all 128 bits). -/
theorem word_eq_of_fields_eq {v w : CmdWord} (hop : fieldOp v = fieldOp w)
    (hch : fieldCh v = fieldCh w) (hpll : fieldPll v = fieldPll w) (hen : fieldEn v = fieldEn w)
    (hrx : fieldRx v = fieldRx w) (hlow : fieldLowReserved v = fieldLowReserved w)
    (harg : fieldArg v = fieldArg w) (hnum : fieldNum v = fieldNum w)
    (hden : fieldDen v = fieldDen w) (hhigh : fieldHighReserved v = fieldHighReserved w) :
    v = w := by
  apply BitVec.eq_of_getLsbD_eq
  intro i hi
  rcases lt_or_ge i 4 with h | h
  · exact getLsbD_eq_of_field_eq hop (by omega) (by omega)
  rcases lt_or_ge i 6 with h | h
  · exact getLsbD_eq_of_field_eq hch (by omega) (by omega)
  rcases lt_or_ge i 7 with h | h
  · exact getLsbD_eq_of_field_eq hpll (by omega) (by omega)
  rcases lt_or_ge i 8 with h | h
  · exact getLsbD_eq_of_field_eq hen (by omega) (by omega)
  rcases lt_or_ge i 11 with h | h
  · exact getLsbD_eq_of_field_eq hrx (by omega) (by omega)
  rcases lt_or_ge i 16 with h | h
  · exact getLsbD_eq_of_field_eq hlow (by omega) (by omega)
  rcases lt_or_ge i 48 with h | h
  · exact getLsbD_eq_of_field_eq harg (by omega) (by omega)
  rcases lt_or_ge i 68 with h | h
  · exact getLsbD_eq_of_field_eq hnum (by omega) (by omega)
  rcases lt_or_ge i 88 with h | h
  · exact getLsbD_eq_of_field_eq hden (by omega) (by omega)
  · exact getLsbD_eq_of_field_eq hhigh (by omega) (by omega)

/-- A field of a conjunction is the conjunction of the fields; with `word_eq_of_fields_eq` it turns a row's mask
into conditions on fields. -/
theorem extractLsb'_and {n : Nat} (start len : Nat) (v w : BitVec n) :
    (v &&& w).extractLsb' start len = v.extractLsb' start len &&& w.extractLsb' start len := by
  ext i hi
  simp

@[simp] theorem pllOfBit_bit (p : Pll) : pllOfBit p.bit = p := by cases p <;> rfl

end Sys2Proof
end

