-- ==== Sys2Proof/Laws/State.lean ====
section
/-! SUPPORT. The fields of State under each update, and the accessors of VCO and P1HI: one lemma per field per
update, for simp. -/

namespace Sys2Proof.Machine

variable (s : State)

/-! ### The accessors of VCO and P1HI -/

@[simp] theorem State.vco_a : s.vco .a = s.vcoA := rfl
@[simp] theorem State.vco_b : s.vco .b = s.vcoB := rfl
@[simp] theorem State.p1hi_ch0 : s.p1hi .ch0 = s.p1hi0 := rfl
@[simp] theorem State.p1hi_ch1 : s.p1hi .ch1 = s.p1hi1 := rfl
@[simp] theorem State.p1hi_ch2 : s.p1hi .ch2 = s.p1hi2 := rfl

/-! ### Recording a VCO frequency -/

@[simp] theorem State.setVco_cfg (p : Pll) (v : BitVec 65) :
    (s.setVco p v).cfg = s.cfg := by cases p <;> rfl
@[simp] theorem State.setVco_xtal (p : Pll) (v : BitVec 65) :
    (s.setVco p v).xtal = s.xtal := by cases p <;> rfl
@[simp] theorem State.setVco_busaddr (p : Pll) (v : BitVec 65) :
    (s.setVco p v).busaddr = s.busaddr := by cases p <;> rfl
@[simp] theorem State.setVco_p1hi0 (p : Pll) (v : BitVec 65) :
    (s.setVco p v).p1hi0 = s.p1hi0 := by cases p <;> rfl
@[simp] theorem State.setVco_p1hi1 (p : Pll) (v : BitVec 65) :
    (s.setVco p v).p1hi1 = s.p1hi1 := by cases p <;> rfl
@[simp] theorem State.setVco_p1hi2 (p : Pll) (v : BitVec 65) :
    (s.setVco p v).p1hi2 = s.p1hi2 := by cases p <;> rfl
@[simp] theorem State.setVco_status (p : Pll) (v : BitVec 65) :
    (s.setVco p v).status = s.status := by cases p <;> rfl
@[simp] theorem State.setVco_mode (p : Pll) (v : BitVec 65) :
    (s.setVco p v).mode = s.mode := by cases p <;> rfl
@[simp] theorem State.setVco_port (p : Pll) (v : BitVec 65) :
    (s.setVco p v).port = s.port := by cases p <;> rfl
@[simp] theorem State.setVco_bus (p : Pll) (v : BitVec 65) :
    (s.setVco p v).bus = s.bus := by cases p <;> rfl
@[simp] theorem State.setVco_outside (p : Pll) (v : BitVec 65) :
    (s.setVco p v).outside = s.outside := by cases p <;> rfl
@[simp] theorem State.setVco_log (p : Pll) (v : BitVec 65) :
    (s.setVco p v).log = s.log := by cases p <;> rfl
@[simp] theorem State.setVco_bank (p : Pll) (v : BitVec 65) :
    (s.setVco p v).bank = s.bank := by cases p <;> rfl
@[simp] theorem State.setVco_responses (p : Pll) (v : BitVec 65) :
    (s.setVco p v).responses = s.responses := by cases p <;> rfl
@[simp] theorem State.setVco_vco (p q : Pll) (v : BitVec 65) :
    (s.setVco p v).vco q = if q = p then v else s.vco q := by cases p <;> cases q <;> rfl
@[simp] theorem State.setVco_p1hi (p : Pll) (v : BitVec 65) (c : Channel) :
    (s.setVco p v).p1hi c = s.p1hi c := by cases p <;> cases c <;> rfl

/-! ### Recording P1[17:16] -/

@[simp] theorem State.setP1hi_cfg (c : Channel) (v : BitVec 2) :
    (s.setP1hi c v).cfg = s.cfg := by cases c <;> rfl
@[simp] theorem State.setP1hi_xtal (c : Channel) (v : BitVec 2) :
    (s.setP1hi c v).xtal = s.xtal := by cases c <;> rfl
@[simp] theorem State.setP1hi_busaddr (c : Channel) (v : BitVec 2) :
    (s.setP1hi c v).busaddr = s.busaddr := by cases c <;> rfl
@[simp] theorem State.setP1hi_vcoA (c : Channel) (v : BitVec 2) :
    (s.setP1hi c v).vcoA = s.vcoA := by cases c <;> rfl
@[simp] theorem State.setP1hi_vcoB (c : Channel) (v : BitVec 2) :
    (s.setP1hi c v).vcoB = s.vcoB := by cases c <;> rfl
@[simp] theorem State.setP1hi_status (c : Channel) (v : BitVec 2) :
    (s.setP1hi c v).status = s.status := by cases c <;> rfl
@[simp] theorem State.setP1hi_mode (c : Channel) (v : BitVec 2) :
    (s.setP1hi c v).mode = s.mode := by cases c <;> rfl
@[simp] theorem State.setP1hi_port (c : Channel) (v : BitVec 2) :
    (s.setP1hi c v).port = s.port := by cases c <;> rfl
@[simp] theorem State.setP1hi_bus (c : Channel) (v : BitVec 2) :
    (s.setP1hi c v).bus = s.bus := by cases c <;> rfl
@[simp] theorem State.setP1hi_outside (c : Channel) (v : BitVec 2) :
    (s.setP1hi c v).outside = s.outside := by cases c <;> rfl
@[simp] theorem State.setP1hi_log (c : Channel) (v : BitVec 2) :
    (s.setP1hi c v).log = s.log := by cases c <;> rfl
@[simp] theorem State.setP1hi_bank (c : Channel) (v : BitVec 2) :
    (s.setP1hi c v).bank = s.bank := by cases c <;> rfl
@[simp] theorem State.setP1hi_responses (c : Channel) (v : BitVec 2) :
    (s.setP1hi c v).responses = s.responses := by cases c <;> rfl
@[simp] theorem State.setP1hi_p1hi (c d : Channel) (v : BitVec 2) :
    (s.setP1hi c v).p1hi d = if d = c then v else s.p1hi d := by cases c <;> cases d <;> rfl
@[simp] theorem State.setP1hi_vco (c : Channel) (v : BitVec 2) (p : Pll) :
    (s.setP1hi c v).vco p = s.vco p := by cases c <;> cases p <;> rfl

/-! ### The write transaction -/

@[simp] theorem State.memWrite_cfg (w : Write) (a : Answer) :
    (s.memWrite w a).cfg = s.cfg := rfl
@[simp] theorem State.memWrite_xtal (w : Write) (a : Answer) :
    (s.memWrite w a).xtal = s.xtal := rfl
@[simp] theorem State.memWrite_busaddr (w : Write) (a : Answer) :
    (s.memWrite w a).busaddr = s.busaddr := rfl
@[simp] theorem State.memWrite_vcoA (w : Write) (a : Answer) :
    (s.memWrite w a).vcoA = s.vcoA := rfl
@[simp] theorem State.memWrite_vcoB (w : Write) (a : Answer) :
    (s.memWrite w a).vcoB = s.vcoB := rfl
@[simp] theorem State.memWrite_p1hi0 (w : Write) (a : Answer) :
    (s.memWrite w a).p1hi0 = s.p1hi0 := rfl
@[simp] theorem State.memWrite_p1hi1 (w : Write) (a : Answer) :
    (s.memWrite w a).p1hi1 = s.p1hi1 := rfl
@[simp] theorem State.memWrite_p1hi2 (w : Write) (a : Answer) :
    (s.memWrite w a).p1hi2 = s.p1hi2 := rfl
@[simp] theorem State.memWrite_status (w : Write) (a : Answer) :
    (s.memWrite w a).status = s.status := rfl
@[simp] theorem State.memWrite_mode (w : Write) (a : Answer) :
    (s.memWrite w a).mode = s.mode := rfl
@[simp] theorem State.memWrite_port (w : Write) (a : Answer) :
    (s.memWrite w a).port = s.port := rfl
@[simp] theorem State.memWrite_bus (w : Write) (a : Answer) :
    (s.memWrite w a).bus = s.bus := rfl
@[simp] theorem State.memWrite_outside (w : Write) (a : Answer) :
    (s.memWrite w a).outside = s.outside := rfl
@[simp] theorem State.memWrite_log (w : Write) (a : Answer) :
    (s.memWrite w a).log = s.log ++ [⟨s.busaddr, w.addr, w.data, a⟩] := rfl
@[simp] theorem State.memWrite_bank (w : Write) (a : Answer) :
    (s.memWrite w a).bank = bankAfter w a s.bank := rfl
@[simp] theorem State.memWrite_responses (w : Write) (a : Answer) :
    (s.memWrite w a).responses = s.responses := rfl
@[simp] theorem State.memWrite_vco (w : Write) (a : Answer) (p : Pll) :
    (s.memWrite w a).vco p = s.vco p := by cases p <;> rfl
@[simp] theorem State.memWrite_p1hi (w : Write) (a : Answer) (c : Channel) :
    (s.memWrite w a).p1hi c = s.p1hi c := by cases c <;> rfl

/-! ### The completion of a command -/

@[simp] theorem State.finish_cfg (c : Code) (n : Nat) (a : Addr) :
    (s.finish c n a).cfg = s.cfg := rfl
@[simp] theorem State.finish_xtal (c : Code) (n : Nat) (a : Addr) :
    (s.finish c n a).xtal = s.xtal := rfl
@[simp] theorem State.finish_busaddr (c : Code) (n : Nat) (a : Addr) :
    (s.finish c n a).busaddr = s.busaddr := rfl
@[simp] theorem State.finish_vcoA (c : Code) (n : Nat) (a : Addr) :
    (s.finish c n a).vcoA = s.vcoA := rfl
@[simp] theorem State.finish_vcoB (c : Code) (n : Nat) (a : Addr) :
    (s.finish c n a).vcoB = s.vcoB := rfl
@[simp] theorem State.finish_p1hi0 (c : Code) (n : Nat) (a : Addr) :
    (s.finish c n a).p1hi0 = s.p1hi0 := rfl
@[simp] theorem State.finish_p1hi1 (c : Code) (n : Nat) (a : Addr) :
    (s.finish c n a).p1hi1 = s.p1hi1 := rfl
@[simp] theorem State.finish_p1hi2 (c : Code) (n : Nat) (a : Addr) :
    (s.finish c n a).p1hi2 = s.p1hi2 := rfl
@[simp] theorem State.finish_status (c : Code) (n : Nat) (a : Addr) :
    (s.finish c n a).status = statusWord c n a := rfl
@[simp] theorem State.finish_mode (c : Code) (n : Nat) (a : Addr) :
    (s.finish c n a).mode = .idle := rfl
@[simp] theorem State.finish_port (c : Code) (n : Nat) (a : Addr) :
    (s.finish c n a).port = s.port := rfl
@[simp] theorem State.finish_bus (c : Code) (n : Nat) (a : Addr) :
    (s.finish c n a).bus = s.bus := rfl
@[simp] theorem State.finish_outside (c : Code) (n : Nat) (a : Addr) :
    (s.finish c n a).outside = s.outside := rfl
@[simp] theorem State.finish_log (c : Code) (n : Nat) (a : Addr) :
    (s.finish c n a).log = s.log := rfl
@[simp] theorem State.finish_bank (c : Code) (n : Nat) (a : Addr) :
    (s.finish c n a).bank = s.bank := rfl
@[simp] theorem State.finish_responses (c : Code) (n : Nat) (a : Addr) :
    (s.finish c n a).responses = s.responses ++ [statusWord c n a] := rfl
@[simp] theorem State.finish_vco (c : Code) (n : Nat) (a : Addr) (p : Pll) :
    (s.finish c n a).vco p = s.vco p := by cases p <;> rfl
@[simp] theorem State.finish_p1hi (c : Code) (n : Nat) (a : Addr) (d : Channel) :
    (s.finish c n a).p1hi d = s.p1hi d := by cases d <;> rfl
@[simp] theorem State.raise_cfg (c : Code) :
    (s.raise c).cfg = s.cfg := rfl
@[simp] theorem State.raise_xtal (c : Code) :
    (s.raise c).xtal = s.xtal := rfl
@[simp] theorem State.raise_busaddr (c : Code) :
    (s.raise c).busaddr = s.busaddr := rfl
@[simp] theorem State.raise_vcoA (c : Code) :
    (s.raise c).vcoA = s.vcoA := rfl
@[simp] theorem State.raise_vcoB (c : Code) :
    (s.raise c).vcoB = s.vcoB := rfl
@[simp] theorem State.raise_p1hi0 (c : Code) :
    (s.raise c).p1hi0 = s.p1hi0 := rfl
@[simp] theorem State.raise_p1hi1 (c : Code) :
    (s.raise c).p1hi1 = s.p1hi1 := rfl
@[simp] theorem State.raise_p1hi2 (c : Code) :
    (s.raise c).p1hi2 = s.p1hi2 := rfl
@[simp] theorem State.raise_status (c : Code) :
    (s.raise c).status = statusWord c 0 0#8 := rfl
@[simp] theorem State.raise_mode (c : Code) :
    (s.raise c).mode = .idle := rfl
@[simp] theorem State.raise_port (c : Code) :
    (s.raise c).port = s.port := rfl
@[simp] theorem State.raise_bus (c : Code) :
    (s.raise c).bus = s.bus := rfl
@[simp] theorem State.raise_outside (c : Code) :
    (s.raise c).outside = s.outside := rfl
@[simp] theorem State.raise_log (c : Code) :
    (s.raise c).log = s.log := rfl
@[simp] theorem State.raise_bank (c : Code) :
    (s.raise c).bank = s.bank := rfl
@[simp] theorem State.raise_responses (c : Code) :
    (s.raise c).responses = s.responses ++ [statusWord c 0 0#8] := rfl
@[simp] theorem State.raise_vco (c : Code) (p : Pll) : (s.raise c).vco p = s.vco p := by
  cases p <;> rfl
@[simp] theorem State.raise_p1hi (c : Code) (d : Channel) : (s.raise c).p1hi d = s.p1hi d := by
  cases d <;> rfl

/-! ### The update of a command -/

@[simp] theorem State.apply_nothing : s.apply .nothing = s := rfl
@[simp] theorem State.apply_recordVco (p : Pll) (v : BitVec 65) :
    s.apply (.recordVco p v) = s.setVco p v := rfl
@[simp] theorem State.apply_recordP1hi (c : Channel) (v : BitVec 2) :
    s.apply (.recordP1hi c v) = s.setP1hi c v := rfl
@[simp] theorem State.apply_cfg (u : Update) :
    (s.apply u).cfg = s.cfg := by cases u <;> simp [State.apply]
@[simp] theorem State.apply_xtal (u : Update) :
    (s.apply u).xtal = s.xtal := by cases u <;> simp [State.apply]
@[simp] theorem State.apply_busaddr (u : Update) :
    (s.apply u).busaddr = s.busaddr := by cases u <;> simp [State.apply]
@[simp] theorem State.apply_status (u : Update) :
    (s.apply u).status = s.status := by cases u <;> simp [State.apply]
@[simp] theorem State.apply_mode (u : Update) :
    (s.apply u).mode = s.mode := by cases u <;> simp [State.apply]
@[simp] theorem State.apply_port (u : Update) :
    (s.apply u).port = s.port := by cases u <;> simp [State.apply]
@[simp] theorem State.apply_bus (u : Update) :
    (s.apply u).bus = s.bus := by cases u <;> simp [State.apply]
@[simp] theorem State.apply_outside (u : Update) :
    (s.apply u).outside = s.outside := by cases u <;> simp [State.apply]
@[simp] theorem State.apply_log (u : Update) :
    (s.apply u).log = s.log := by cases u <;> simp [State.apply]
@[simp] theorem State.apply_bank (u : Update) :
    (s.apply u).bank = s.bank := by cases u <;> simp [State.apply]
@[simp] theorem State.apply_responses (u : Update) :
    (s.apply u).responses = s.responses := by cases u <;> simp [State.apply]

/-! ### The construction of the Device -/

@[simp] theorem State.constructDevice_cfg (cfg : Config) :
    (s.constructDevice cfg).cfg = cfg := rfl
@[simp] theorem State.constructDevice_xtal (cfg : Config) :
    (s.constructDevice cfg).xtal = cfg.xtalHz := rfl
@[simp] theorem State.constructDevice_busaddr (cfg : Config) :
    (s.constructDevice cfg).busaddr = cfg.busAddr := rfl
@[simp] theorem State.constructDevice_vcoA (cfg : Config) :
    (s.constructDevice cfg).vcoA = 0#65 := rfl
@[simp] theorem State.constructDevice_vcoB (cfg : Config) :
    (s.constructDevice cfg).vcoB = 0#65 := rfl
@[simp] theorem State.constructDevice_p1hi0 (cfg : Config) :
    (s.constructDevice cfg).p1hi0 = 0#2 := rfl
@[simp] theorem State.constructDevice_p1hi1 (cfg : Config) :
    (s.constructDevice cfg).p1hi1 = 0#2 := rfl
@[simp] theorem State.constructDevice_p1hi2 (cfg : Config) :
    (s.constructDevice cfg).p1hi2 = 0#2 := rfl
@[simp] theorem State.constructDevice_status (cfg : Config) :
    (s.constructDevice cfg).status = 0#32 := rfl
@[simp] theorem State.constructDevice_mode (cfg : Config) :
    (s.constructDevice cfg).mode = .idle := rfl
@[simp] theorem State.constructDevice_port (cfg : Config) :
    (s.constructDevice cfg).port = s.port := rfl
@[simp] theorem State.constructDevice_bus (cfg : Config) :
    (s.constructDevice cfg).bus = s.bus := rfl
@[simp] theorem State.constructDevice_outside (cfg : Config) :
    (s.constructDevice cfg).outside = s.outside := rfl
@[simp] theorem State.constructDevice_log (cfg : Config) :
    (s.constructDevice cfg).log = s.log := rfl
@[simp] theorem State.constructDevice_bank (cfg : Config) :
    (s.constructDevice cfg).bank = s.bank := rfl
@[simp] theorem State.constructDevice_responses (cfg : Config) :
    (s.constructDevice cfg).responses = s.responses := rfl
@[simp] theorem State.constructDevice_vco (cfg : Config) (p : Pll) :
    (s.constructDevice cfg).vco p = 0#65 := by cases p <;> rfl
@[simp] theorem State.constructDevice_p1hi (cfg : Config) (c : Channel) :
    (s.constructDevice cfg).p1hi c = 0#2 := by cases c <;> rfl

end Sys2Proof.Machine
end

