-- ==== Sys2Proof/Laws/Memory.lean ====
section
/-! SUPPORT. The bank image: reading after storing and forgetting, the canonical form, and the image of a log. -/

namespace Sys2Proof.Machine

/-- The canonical form is: addresses strictly rising. -/
theorem Memory.wf_iff_pairwise (m : Memory) :
    Memory.wf m = true ↔ m.Pairwise (fun x y => x.1 < y.1) := by
  induction m with
  | nil => simp [Memory.wf]
  | cons c m ih =>
    cases m with
    | nil => simp [Memory.wf]
    | cons d m =>
      simp only [Memory.wf, Bool.and_eq_true, decide_eq_true_eq, ih, List.pairwise_cons]
      constructor
      · rintro ⟨h, hd, hm⟩
        refine ⟨?_, hd, hm⟩
        intro e he
        rcases List.mem_cons.1 he with rfl | he
        · exact h
        · exact lt_trans h (hd e he)
      · rintro ⟨h, hd, hm⟩
        exact ⟨h d (List.mem_cons_self ..), hd, hm⟩

@[simp] theorem Memory.read_nil (a : Nat) : Memory.read [] a = none := rfl

/-- A read after a store gives the value stored, and every other address reads as before. -/
theorem Memory.read_store (a : Nat) (x : Byte) (m : Memory) (b : Nat) :
    (m.store a x).read b = if b = a then some x else m.read b := by
  induction m with
  | nil => simp [Memory.store, Memory.read]
  | cons c m ih =>
    obtain ⟨d, y⟩ := c
    simp only [Memory.store]
    split_ifs with h1 h2 <;> simp only [Memory.read] <;> split_ifs <;> simp_all

theorem Memory.mem_store {a : Nat} {x : Byte} {m : Memory} {c : Host.Cell}
    (h : c ∈ m.store a x) : c = (a, x) ∨ c ∈ m := by
  induction m with
  | nil => simpa [Memory.store] using h
  | cons d m ih =>
    obtain ⟨b, y⟩ := d
    simp only [Memory.store] at h
    split_ifs at h <;> simp only [List.mem_cons] at h ⊢ <;> tauto

theorem Memory.mem_of_mem_forget {a : Nat} {m : Memory} {c : Host.Cell}
    (h : c ∈ m.forget a) : c ∈ m := by
  induction m with
  | nil => simp [Memory.forget] at h
  | cons d m ih =>
    obtain ⟨b, y⟩ := d
    simp only [Memory.forget] at h
    split_ifs at h <;> simp only [List.mem_cons] at h ⊢ <;> tauto

/-- A store keeps the canonical form. -/
theorem Memory.wf_store (a : Nat) (x : Byte) {m : Memory} (h : Memory.wf m = true) :
    Memory.wf (m.store a x) = true := by
  rw [Memory.wf_iff_pairwise] at h ⊢
  induction m with
  | nil => simp [Memory.store]
  | cons c m ih =>
    obtain ⟨b, y⟩ := c
    have hc := (List.pairwise_cons.1 h).1
    simp only [Memory.store]
    split_ifs with h1 h2
    · refine List.pairwise_cons.2 ⟨?_, h⟩
      intro e he
      rcases List.mem_cons.1 he with rfl | he
      · exact h1
      · exact lt_trans h1 (hc e he)
    · subst h2
      exact List.pairwise_cons.2 ⟨hc, h.of_cons⟩
    · refine List.pairwise_cons.2 ⟨?_, ih h.of_cons⟩
      intro e he
      rcases Memory.mem_store he with rfl | he
      · show b < a
        omega
      · exact hc e he

/-- Forgetting keeps the canonical form. -/
theorem Memory.wf_forget (a : Nat) {m : Memory} (h : Memory.wf m = true) :
    Memory.wf (m.forget a) = true := by
  rw [Memory.wf_iff_pairwise] at h ⊢
  induction m with
  | nil => simp [Memory.forget]
  | cons c m ih =>
    obtain ⟨b, y⟩ := c
    simp only [Memory.forget]
    split_ifs with h1
    · exact h.of_cons
    · exact List.pairwise_cons.2
        ⟨fun e he => (List.pairwise_cons.1 h).1 e (Memory.mem_of_mem_forget he), ih h.of_cons⟩

/-- The bank image of a Device just constructed is in canonical form. -/
theorem wf_bank_construct (cfg : Config) : Memory.wf (State.construct cfg).bank = true := rfl

/-- That of `State.reset` is. -/
theorem wf_bank_reset : Memory.wf State.reset.bank = true := rfl

theorem Memory.read_eq_none_of_forall_ne {a : Nat} {m : Memory} (h : ∀ c ∈ m, c.1 ≠ a) :
    m.read a = none := by
  induction m with
  | nil => rfl
  | cons c m ih =>
    obtain ⟨b, y⟩ := c
    have hb : b ≠ a := h (b, y) (List.mem_cons_self ..)
    simp only [Memory.read, if_neg (Ne.symm hb)]
    exact ih fun e he => h e (List.mem_cons_of_mem _ he)

/-- Forgetting leaves every other address as it was. -/
theorem Memory.read_forget_of_ne {a b : Nat} (hb : b ≠ a) (m : Memory) :
    (m.forget a).read b = m.read b := by
  induction m with
  | nil => rfl
  | cons c m ih =>
    obtain ⟨d, y⟩ := c
    simp only [Memory.forget]
    split_ifs with h1
    · subst h1
      simp [Memory.read, hb]
    · simp only [Memory.read, ih]

/-- In canonical form a forgotten address is unknown. -/
theorem Memory.read_forget_self {m : Memory} (h : Memory.wf m = true) (a : Nat) :
    (m.forget a).read a = none := by
  rw [Memory.wf_iff_pairwise] at h
  induction m with
  | nil => rfl
  | cons c m ih =>
    obtain ⟨b, y⟩ := c
    have hc := (List.pairwise_cons.1 h).1
    simp only [Memory.forget]
    split_ifs with h1
    · subst h1
      exact Memory.read_eq_none_of_forall_ne fun e he => (hc e he).ne'
    · simp only [Memory.read, if_neg h1]
      exact ih h.of_cons

/-- An answered write keeps the canonical form, whatever the answer. -/
theorem wf_bankAfter (w : Write) (a : Answer) {m : Memory} (h : Memory.wf m = true) :
    Memory.wf (bankAfter w a m) = true := by
  cases a
  · exact Memory.wf_store _ _ h
  · exact Memory.wf_forget _ h

/-- An answered write leaves every other address as it was. -/
theorem read_bankAfter_of_ne (w : Write) (a : Answer) (m : Memory) {b : Nat}
    (hb : b ≠ w.addr.toNat) : (bankAfter w a m).read b = m.read b := by
  cases a
  · simp [bankAfter, Memory.read_store, hb]
  · exact Memory.read_forget_of_ne hb m

@[simp] theorem imageOf_nil (a : Addr) : imageOf [] a = none := rfl

/-- The image of a log grown by one write (20_memory R51). -/
theorem imageOf_append_one (log : List LogEntry) (e : LogEntry) (a : Addr) :
    imageOf (log ++ [e]) a =
      if e.addr = a then (if e.answer = .ok then some e.data else none) else imageOf log a := by
  simp only [imageOf, List.reverse_append, List.reverse_cons, List.reverse_nil, List.nil_append,
    List.singleton_append, List.find?_cons]
  by_cases h : e.addr = a
  · simp [h]
  · simp [h, beq_false_of_ne h]

/-- The bank follows the image of the log through one write. -/
theorem bankAfter_is_image {log : List LogEntry} {m : Memory} (hwf : Memory.wf m = true)
    (h : ∀ a : Addr, m.read a.toNat = imageOf log a) (d : BitVec 7) (w : Write) (x : Answer)
    (a : Addr) :
    (bankAfter w x m).read a.toNat = imageOf (log ++ [⟨d, w.addr, w.data, x⟩]) a := by
  rw [imageOf_append_one]
  by_cases ha : w.addr = a
  · subst ha
    cases x
    · simp [bankAfter, Memory.read_store]
    · simp [bankAfter, Memory.read_forget_self hwf]
  · have hb : a.toNat ≠ w.addr.toNat := fun hh => ha (BitVec.eq_of_toNat_eq hh.symm)
    simp [read_bankAfter_of_ne w x m hb, h, ha]

theorem mem_bankAfter_lt {w : Write} {x : Answer} {m : Memory} (h : ∀ c ∈ m, c.1 < 256) :
    ∀ c ∈ bankAfter w x m, c.1 < 256 := by
  intro c hc
  cases x
  · rcases Memory.mem_store hc with rfl | hc
    · exact w.addr.isLt
    · exact h c hc
  · exact h c (Memory.mem_of_mem_forget hc)

@[simp] theorem bankWith_nil (m : Memory) : bankWith [] m = m := rfl

@[simp] theorem bankWith_cons (w : Write) (ws : List Write) (m : Memory) :
    bankWith (w :: ws) m = bankWith ws (m.store w.addr.toNat w.data) := rfl

theorem bankWith_append (ws vs : List Write) (m : Memory) :
    bankWith (ws ++ vs) m = bankWith vs (bankWith ws m) := by
  simp [bankWith, List.foldl_append]

/-- Writes answered `OK` leave every address they do not name as it was. -/
theorem read_bankWith_of_ne {ws : List Write} {a : Addr} (h : a ∉ ws.map Write.addr) (m : Memory) :
    (bankWith ws m).read a.toNat = m.read a.toNat := by
  induction ws generalizing m with
  | nil => rfl
  | cons w ws ih =>
    simp only [List.map_cons, List.mem_cons, not_or] at h
    rw [bankWith_cons, ih h.2, Memory.read_store,
      if_neg fun hh => h.1 (BitVec.eq_of_toNat_eq hh)]

end Sys2Proof.Machine
end

