-- ==== Sys2Proof/Laws/Ops.lean ====
section
/-! SUPPORT. What the run of a write list can do: one closed form for each of its three endings, and the inversion
lemma that says these are all. Later proofs cite these and never unfold `State.drive`. -/

namespace Sys2Proof.Machine

@[simp] theorem okEntries_nil (d : BitVec 7) : okEntries d [] = [] := rfl

@[simp] theorem okEntries_cons (d : BitVec 7) (w : Write) (ws : List Write) :
    okEntries d (w :: ws) = ⟨d, w.addr, w.data, .ok⟩ :: okEntries d ws := rfl

@[simp] theorem okEntries_append (d : BitVec 7) (ws vs : List Write) :
    okEntries d (ws ++ vs) = okEntries d ws ++ okEntries d vs := by simp [okEntries]

@[simp] theorem map_answer_okEntries (d : BitVec 7) (ws : List Write) :
    (okEntries d ws).map LogEntry.answer = List.replicate ws.length .ok := by
  induction ws with
  | nil => rfl
  | cons w ws ih => simp [ih, List.replicate_succ]

@[simp] theorem map_addr_okEntries (d : BitVec 7) (ws : List Write) :
    (okEntries d ws).map LogEntry.addr = ws.map Write.addr := by simp [okEntries]

theorem dev_of_mem_okEntries {d : BitVec 7} {ws : List Write} {e : LogEntry}
    (h : e ∈ okEntries d ws) : e.dev = d := by
  obtain ⟨w, -, rfl⟩ := List.mem_map.1 h
  rfl

section
variable (s : State)

/-! ### What a written list and a completion leave, field by field -/

@[simp] theorem State.wrote_cfg (ws : List Write) (as : List Answer) :
    (s.wrote ws as).cfg = s.cfg := rfl
@[simp] theorem State.wrote_xtal (ws : List Write) (as : List Answer) :
    (s.wrote ws as).xtal = s.xtal := rfl
@[simp] theorem State.wrote_busaddr (ws : List Write) (as : List Answer) :
    (s.wrote ws as).busaddr = s.busaddr := rfl
@[simp] theorem State.wrote_vcoA (ws : List Write) (as : List Answer) :
    (s.wrote ws as).vcoA = s.vcoA := rfl
@[simp] theorem State.wrote_vcoB (ws : List Write) (as : List Answer) :
    (s.wrote ws as).vcoB = s.vcoB := rfl
@[simp] theorem State.wrote_p1hi0 (ws : List Write) (as : List Answer) :
    (s.wrote ws as).p1hi0 = s.p1hi0 := rfl
@[simp] theorem State.wrote_p1hi1 (ws : List Write) (as : List Answer) :
    (s.wrote ws as).p1hi1 = s.p1hi1 := rfl
@[simp] theorem State.wrote_p1hi2 (ws : List Write) (as : List Answer) :
    (s.wrote ws as).p1hi2 = s.p1hi2 := rfl
@[simp] theorem State.wrote_status (ws : List Write) (as : List Answer) :
    (s.wrote ws as).status = s.status := rfl
@[simp] theorem State.wrote_mode (ws : List Write) (as : List Answer) :
    (s.wrote ws as).mode = s.mode := rfl
@[simp] theorem State.wrote_port (ws : List Write) (as : List Answer) :
    (s.wrote ws as).port = s.port := rfl
@[simp] theorem State.wrote_bus (ws : List Write) (as : List Answer) :
    (s.wrote ws as).bus = as := rfl
@[simp] theorem State.wrote_outside (ws : List Write) (as : List Answer) :
    (s.wrote ws as).outside = s.outside := rfl
@[simp] theorem State.wrote_log (ws : List Write) (as : List Answer) :
    (s.wrote ws as).log = s.log ++ okEntries s.busaddr ws := rfl
@[simp] theorem State.wrote_bank (ws : List Write) (as : List Answer) :
    (s.wrote ws as).bank = bankWith ws s.bank := rfl
@[simp] theorem State.wrote_responses (ws : List Write) (as : List Answer) :
    (s.wrote ws as).responses = s.responses := rfl
@[simp] theorem State.wrote_vco (ws : List Write) (as : List Answer) (p : Pll) :
    (s.wrote ws as).vco p = s.vco p := by cases p <;> rfl
@[simp] theorem State.wrote_p1hi (ws : List Write) (as : List Answer) (c : Channel) :
    (s.wrote ws as).p1hi c = s.p1hi c := by cases c <;> rfl

@[simp] theorem State.completed_cfg (v : BitVec 32) :
    (s.completed v).cfg = s.cfg := rfl
@[simp] theorem State.completed_xtal (v : BitVec 32) :
    (s.completed v).xtal = s.xtal := rfl
@[simp] theorem State.completed_busaddr (v : BitVec 32) :
    (s.completed v).busaddr = s.busaddr := rfl
@[simp] theorem State.completed_vcoA (v : BitVec 32) :
    (s.completed v).vcoA = s.vcoA := rfl
@[simp] theorem State.completed_vcoB (v : BitVec 32) :
    (s.completed v).vcoB = s.vcoB := rfl
@[simp] theorem State.completed_p1hi0 (v : BitVec 32) :
    (s.completed v).p1hi0 = s.p1hi0 := rfl
@[simp] theorem State.completed_p1hi1 (v : BitVec 32) :
    (s.completed v).p1hi1 = s.p1hi1 := rfl
@[simp] theorem State.completed_p1hi2 (v : BitVec 32) :
    (s.completed v).p1hi2 = s.p1hi2 := rfl
@[simp] theorem State.completed_status (v : BitVec 32) :
    (s.completed v).status = v := rfl
@[simp] theorem State.completed_mode (v : BitVec 32) :
    (s.completed v).mode = .idle := rfl
@[simp] theorem State.completed_port (v : BitVec 32) :
    (s.completed v).port = s.port := rfl
@[simp] theorem State.completed_bus (v : BitVec 32) :
    (s.completed v).bus = s.bus := rfl
@[simp] theorem State.completed_outside (v : BitVec 32) :
    (s.completed v).outside = s.outside := rfl
@[simp] theorem State.completed_log (v : BitVec 32) :
    (s.completed v).log = s.log := rfl
@[simp] theorem State.completed_bank (v : BitVec 32) :
    (s.completed v).bank = s.bank := rfl
@[simp] theorem State.completed_responses (v : BitVec 32) :
    (s.completed v).responses = s.responses ++ [v] := rfl
@[simp] theorem State.completed_vco (v : BitVec 32) (p : Pll) :
    (s.completed v).vco p = s.vco p := by cases p <;> rfl
@[simp] theorem State.completed_p1hi (v : BitVec 32) (c : Channel) :
    (s.completed v).p1hi c = s.p1hi c := by cases c <;> rfl

theorem State.finish_eq_completed (c : Code) (n : Nat) (a : Addr) :
    s.finish c n a = s.completed (statusWord c n a) := rfl

end

/-- One `OK` write, then more of them. -/
theorem wrote_memWrite (s : State) (w : Write) (ws : List Write) (answers : List Answer) :
    (s.memWrite w .ok).wrote ws answers = s.wrote (w :: ws) answers := by
  simp [State.wrote, State.memWrite, bankAfter]

/-- All the writes answered `OK`: the update is applied and the command ends `OK` (60_exceptions R162). -/
theorem drive_all_ok (s : State) (done : Nat) (u : Update) (ws : List Write) (answers : List Answer) :
    s.drive done u ws (List.replicate ws.length .ok ++ answers) =
      ((s.wrote ws answers).apply u).finish .ok (done + ws.length) 0#8 := by
  induction ws generalizing s done with
  | nil => simp [State.drive, State.wrote]
  | cons w ws ih =>
    simp only [List.length_cons, List.replicate_succ, List.cons_append, State.drive, ih,
      wrote_memWrite]
    congr 1
    omega

/-- A write answered `ERR` after `OK`s: `BUS_ERROR`, and the update is not applied (60_exceptions R161). -/
theorem drive_error (s : State) (done : Nat) (u : Update) (pre : List Write) (w : Write)
    (post : List Write) (answers : List Answer) :
    s.drive done u (pre ++ w :: post) (List.replicate pre.length .ok ++ .err :: answers) =
      ((s.wrote pre answers).memWrite w .err).finish .busError (done + pre.length) w.addr := by
  induction pre generalizing s done with
  | nil => simp [State.drive, State.wrote, State.memWrite, State.finish]
  | cons v pre ih =>
    simp only [List.length_cons, List.replicate_succ, List.cons_append, State.drive, ih,
      wrote_memWrite]
    congr 1
    omega

/-- The answers run out before the list does: the block stays `BUSY` (20_memory R44). -/
theorem drive_waits (s : State) (done : Nat) (u : Update) (pre : List Write) (w : Write)
    (post : List Write) :
    s.drive done u (pre ++ w :: post) (List.replicate pre.length .ok) =
      { s.wrote pre [] with mode := .busy ⟨done + pre.length, w :: post, u⟩ } := by
  induction pre generalizing s done with
  | nil => simp [State.drive, State.wrote]
  | cons v pre ih =>
    simp only [List.length_cons, List.replicate_succ, List.cons_append, State.drive, ih,
      wrote_memWrite]
    congr 3
    omega

/-- How the answers meet a write list: enough `OK`s, an `ERR` first, or too few answers. -/
theorem answers_cases (ws : List Write) (answers : List Answer) :
    (∃ rest, answers = List.replicate ws.length .ok ++ rest) ∨
    (∃ pre w post rest, ws = pre ++ w :: post ∧
      answers = List.replicate pre.length .ok ++ .err :: rest) ∨
    (∃ pre w post, ws = pre ++ w :: post ∧ answers = List.replicate pre.length .ok) := by
  induction ws generalizing answers with
  | nil => exact .inl ⟨answers, rfl⟩
  | cons w ws ih =>
    cases answers with
    | nil => exact .inr (.inr ⟨[], w, ws, rfl, rfl⟩)
    | cons x answers =>
      cases x with
      | err => exact .inr (.inl ⟨[], w, ws, answers, rfl, rfl⟩)
      | ok =>
        rcases ih answers with ⟨rest, rfl⟩ | ⟨pre, v, post, rest, rfl, rfl⟩ | ⟨pre, v, post, rfl, rfl⟩
        · exact .inl ⟨rest, rfl⟩
        · exact .inr (.inl ⟨w :: pre, v, post, rest, rfl, rfl⟩)
        · exact .inr (.inr ⟨w :: pre, v, post, rfl, rfl⟩)

/-- Everything the run of a write list can do: it ends `OK`, it ends with `BUS_ERROR`, or it waits. -/
theorem drive_cases (s : State) (done : Nat) (u : Update) (ws : List Write) (answers : List Answer) :
    (∃ rest, answers = List.replicate ws.length .ok ++ rest ∧
      s.drive done u ws answers =
        ((s.wrote ws rest).apply u).finish .ok (done + ws.length) 0#8) ∨
    (∃ pre w post rest, ws = pre ++ w :: post ∧
      answers = List.replicate pre.length .ok ++ .err :: rest ∧
      s.drive done u ws answers =
        ((s.wrote pre rest).memWrite w .err).finish .busError (done + pre.length) w.addr) ∨
    (∃ pre w post, ws = pre ++ w :: post ∧ answers = List.replicate pre.length .ok ∧
      s.drive done u ws answers =
        { s.wrote pre [] with mode := .busy ⟨done + pre.length, w :: post, u⟩ }) := by
  rcases answers_cases ws answers with ⟨rest, rfl⟩ | ⟨pre, w, post, rest, rfl, rfl⟩ |
    ⟨pre, w, post, rfl, rfl⟩
  · exact .inl ⟨rest, rfl, drive_all_ok ..⟩
  · exact .inr (.inl ⟨pre, w, post, rest, rfl, rfl, drive_error ..⟩)
  · exact .inr (.inr ⟨pre, w, post, rfl, rfl, drive_waits ..⟩)

/-- Every command's meaning is the run of its plan (60_exceptions R162). -/
theorem exec_eq_run (i : Instr) (s : State) : exec i s = .next (s.run (planOf i s)) := by
  cases i <;> rfl

/-- A planned command whose writes are all answered `OK` (60_exceptions R162). -/
theorem exec_all_ok {i : Instr} {s : State} {pl : Plan} {n : Nat} {answers : List Answer}
    (hp : planOf i s = .writes pl) (hn : pl.writes.length = n)
    (hb : s.bus = List.replicate n .ok ++ answers) :
    exec i s =
      .next (((s.wrote pl.writes answers).apply pl.update).completed (statusWord .ok n 0#8)) := by
  subst hn
  rw [exec_eq_run, hp]
  simp only [State.run, hb, drive_all_ok, Nat.zero_add, State.finish_eq_completed]

/-- A command Validate stops: `STATUS` alone, with no write (60_exceptions R162, R164). -/
theorem exec_fault {i : Instr} {s : State} {c : Code} (hp : planOf i s = .fault c) :
    exec i s = .next (s.completed (statusWord c 0 0#8)) := by
  rw [exec_eq_run, hp]
  rfl

/-- What step does, once, by its four choices. -/
theorem step_of_outside {s : State} {o : Outside} {os : List Outside} (hc : s.cfg.legal = true)
    (ho : s.outside = o :: os) : step s = ({ s with outside := os }).outsideStep o := by
  simp [step, State.stepCases, hc, ho]

theorem step_of_busy {s : State} {f : Flight} (hc : s.cfg.legal = true) (ho : s.outside = [])
    (hm : s.mode = .busy f) : step s = .next (s.resume f) := by
  simp [step, State.stepCases, hc, ho, hm, State.busyStep]

theorem step_of_word {s : State} {w : CmdWord} {ws : List CmdWord} (hr : s.ready)
    (hp : s.port = w :: ws) : step s = ({ s with port := ws }).takeWord w := by
  obtain ⟨hc, ho, hm⟩ := hr
  simp [step, State.stepCases, hc, ho, hm, State.idleStep, hp]

theorem step_of_nothing {s : State} (hr : s.ready) (hp : s.port = []) : step s = .next s := by
  obtain ⟨hc, ho, hm⟩ := hr
  simp [step, State.stepCases, hc, ho, hm, State.idleStep, hp]

theorem step_of_illegal_cfg {s : State} (hc : s.cfg.legal = false) :
    step s = .refused .illegalConfiguration := by
  simp [step, State.stepCases, hc]

end Sys2Proof.Machine
end

