-- ==== Sys2Proof/Laws/PerInstr.lean ====
section
/-! SUPPORT. Per command: its encoding is spelled as its row of the opcode table says (30_encoding R64). -/

namespace Sys2Proof.Laws.RowSpelling

/-- The word of `i` is the command of the row of `i`'s opcode: no unused or reserved bit is set. -/
def Statement (i : Instr) : Prop := matchesRow (encode i) i.opcode = true

/-- A word matches a row when it does so field by field. -/
theorem matchesRow_of_fields {w : CmdWord} {o : Opcode}
    (hop : fieldOp w &&& fieldOp (maskBits o) = fieldOp (matchBits o))
    (hch : fieldCh w &&& fieldCh (maskBits o) = fieldCh (matchBits o))
    (hpll : fieldPll w &&& fieldPll (maskBits o) = fieldPll (matchBits o))
    (hen : fieldEn w &&& fieldEn (maskBits o) = fieldEn (matchBits o))
    (hrx : fieldRx w &&& fieldRx (maskBits o) = fieldRx (matchBits o))
    (hlow : fieldLowReserved w &&& fieldLowReserved (maskBits o) = fieldLowReserved (matchBits o))
    (harg : fieldArg w &&& fieldArg (maskBits o) = fieldArg (matchBits o))
    (hnum : fieldNum w &&& fieldNum (maskBits o) = fieldNum (matchBits o))
    (hden : fieldDen w &&& fieldDen (maskBits o) = fieldDen (matchBits o))
    (hhigh : fieldHighReserved w &&& fieldHighReserved (maskBits o) =
      fieldHighReserved (matchBits o)) :
    matchesRow w o = true := by
  simp only [matchesRow, beq_iff_eq]
  apply word_eq_of_fields_eq <;>
    simp only [fieldOp, fieldCh, fieldPll, fieldEn, fieldRx, fieldLowReserved, fieldArg, fieldNum,
      fieldDen, fieldHighReserved, extractLsb'_and] at * <;>
    assumption

theorem setupPll (p : Pll) (mult : BitVec 32) (num denom : BitVec 20) :
    Statement (.setupPll p mult num denom) := by
  apply matchesRow_of_fields <;> simp [encode, Instr.opcode] <;>
    simp [fieldOp, fieldCh, fieldPll, fieldEn, fieldRx, fieldLowReserved, fieldArg, fieldNum, fieldDen,
      fieldHighReserved, maskBits, matchBits]

theorem setupMs (ch : BitVec 2) (p : Pll) (div : BitVec 32) (num denom : BitVec 20) :
    Statement (.setupMs ch p div num denom) := by
  apply matchesRow_of_fields <;> simp [encode, Instr.opcode] <;>
    simp [fieldOp, fieldCh, fieldPll, fieldEn, fieldRx, fieldLowReserved, fieldArg, fieldNum, fieldDen,
      fieldHighReserved, maskBits, matchBits]

theorem setupRdiv (ch : BitVec 2) (n : BitVec 3) :
    Statement (.setupRdiv ch n) := by
  apply matchesRow_of_fields <;> simp [encode, Instr.opcode] <;>
    simp [fieldOp, fieldCh, fieldPll, fieldEn, fieldRx, fieldLowReserved, fieldArg, fieldNum, fieldDen,
      fieldHighReserved, maskBits, matchBits]

theorem setFreq (ch : BitVec 2) (p : Pll) (f : BitVec 32) :
    Statement (.setFreq ch p f) := by
  apply matchesRow_of_fields <;> simp [encode, Instr.opcode] <;>
    simp [fieldOp, fieldCh, fieldPll, fieldEn, fieldRx, fieldLowReserved, fieldArg, fieldNum, fieldDen,
      fieldHighReserved, maskBits, matchBits]

theorem enableOutputs (en : Bool) :
    Statement (.enableOutputs en) := by
  apply matchesRow_of_fields <;> simp [encode, Instr.opcode] <;>
    simp [fieldOp, fieldCh, fieldPll, fieldEn, fieldRx, fieldLowReserved, fieldArg, fieldNum, fieldDen,
      fieldHighReserved, maskBits, matchBits]

end Sys2Proof.Laws.RowSpelling
end

