-- ==== Sys2Proof/Laws/Plans.lean ====
section
/-! SUPPORT. The write lists of the plans: their lengths and addresses, and when a plan is a fault. -/

namespace Sys2Proof.Machine

@[simp] theorem length_blockBytes (f : Packed) : (blockBytes f).length = 8 := rfl

@[simp] theorem length_writesFrom (base : Nat) (bs : List Byte) :
    (writesFrom base bs).length = bs.length := by
  induction bs generalizing base with
  | nil => rfl
  | cons b bs ih => simp [writesFrom, ih]

@[simp] theorem length_blockWrites (base : Nat) (f : Packed) : (blockWrites base f).length = 8 := by
  simp [blockWrites]

/-- The eight writes of a block go to eight consecutive addresses (30_encoding R67). -/
theorem map_addr_blockWrites (base : Nat) (f : Packed) :
    (blockWrites base f).map Write.addr = eightFrom base := by
  simp [blockWrites, blockBytes, writesFrom, eightFrom, List.range_succ]

/-- A channel operand is 3 or names the channel of its index (60_exceptions R158). -/
theorem channelOf_cases (ch : BitVec 2) :
    (ch = 3#2 ∧ channelOf ch = none) ∨ ∃ c, channelOf ch = some c ∧ channelIndex c = ch.toNat := by
  revert ch
  decide

theorem channelOf_eq_none_iff (ch : BitVec 2) : channelOf ch = none ↔ ch = 3#2 := by
  revert ch
  decide

theorem channelIndex_of_channelOf {ch : BitVec 2} {c : Channel} (h : channelOf ch = some c) :
    channelIndex c = ch.toNat := by
  revert ch
  cases c <;> decide

@[simp] theorem withChannel_some {ch : BitVec 2} {c : Channel} (h : channelOf ch = some c)
    (k : Channel → Planned) : withChannel ch k = k c := by simp [withChannel, h]

@[simp] theorem withChannel_three (k : Channel → Planned) :
    withChannel 3#2 k = .fault .illegalOperand := rfl

theorem withDenom_of_ne {d : BitVec 20} (h : d ≠ 0#20) (pl : Planned) : withDenom d pl = pl := by
  simp [withDenom, h]

@[simp] theorem withDenom_zero (pl : Planned) : withDenom 0#20 pl = .fault .illegalOperand := rfl

theorem withFreq_of_ne {f : BitVec 32} (h : f ≠ 0#32) (pl : Planned) : withFreq f pl = pl := by
  simp [withFreq, h]

@[simp] theorem withFreq_zero (pl : Planned) : withFreq 0#32 pl = .fault .zeroFrequency := rfl

/-- What each plan of a legal command is. -/
theorem planSetupPll_of_legal (p : Pll) (mult : BitVec 32) (num : BitVec 20) {denom : BitVec 20}
    (h : denom ≠ 0#20) (s : State) :
    planSetupPll p mult num denom s = .writes
      { writes :=
          blockWrites (pllBase p) (pack mult.toNat num.toNat denom.toNat) ++ [pllResetWrite s.cfg]
        update :=
          .recordVco p
            (BitVec.ofNat 65 (vcoRecord s.xtal.toNat mult.toNat num.toNat denom.toNat)) } := by
  simp [planSetupPll, withDenom_of_ne h]

theorem planSetupMs_of_legal {ch : BitVec 2} {c : Channel} (hc : channelOf ch = some c) (p : Pll)
    (div : BitVec 32) (num : BitVec 20) {denom : BitVec 20} (h : denom ≠ 0#20) (s : State) :
    planSetupMs ch p div num denom s =
      .writes (msPlan s.cfg c p div.toNat num.toNat denom.toNat) := by
  simp [planSetupMs, withChannel_some hc, withDenom_of_ne h]

theorem planSetupRdiv_of_legal {ch : BitVec 2} {c : Channel} (hc : channelOf ch = some c)
    (n : BitVec 3) (s : State) :
    planSetupRdiv ch n s =
      .writes { writes := [rdivWrite s.cfg c n (s.p1hi c)], update := .nothing } := by
  simp [planSetupRdiv, withChannel_some hc]

theorem planSetFreq_of_legal {ch : BitVec 2} {c : Channel} (hc : channelOf ch = some c) (p : Pll)
    {f : BitVec 32} (h : f ≠ 0#32) (s : State) :
    planSetFreq ch p f s =
      .writes (resolvedPlan s.cfg c p (resolve (s.vco p).toNat f.toNat)) := by
  simp [planSetFreq, withChannel_some hc, withFreq_of_ne h]

@[simp] theorem length_msPlan (cfg : Config) (c : Channel) (p : Pll) (div num den : Nat) :
    (msPlan cfg c p div num den).writes.length = 9 := by
  simp [msPlan]

@[simp] theorem length_resolvedPlan (cfg : Config) (c : Channel) (p : Pll) (r : Resolved) :
    (resolvedPlan cfg c p r).writes.length = 10 := by
  simp [resolvedPlan]

/-- A plan is a fault of Validate, or a list of 1 to 10 writes (60_exceptions R156, 10_state R27). -/
theorem planOf_cases (i : Instr) (s : State) :
    planOf i s = .fault .illegalOperand ∨ planOf i s = .fault .zeroFrequency ∨
      ∃ pl, planOf i s = .writes pl ∧ 1 ≤ pl.writes.length ∧ pl.writes.length ≤ 10 := by
  cases i with
  | setupPll p mult num denom =>
    by_cases h : denom = 0#20
    · subst h; exact .inl rfl
    · exact .inr (.inr ⟨_, planSetupPll_of_legal p mult num h s, by simp, by simp⟩)
  | setupMs ch p div num denom =>
    rcases channelOf_cases ch with ⟨rfl, -⟩ | ⟨c, hc, -⟩
    · exact .inl rfl
    by_cases h : denom = 0#20
    · subst h; exact .inl (by simp [planOf, planSetupMs, withChannel_some hc])
    · exact .inr (.inr ⟨_, planSetupMs_of_legal hc p div num h s, by simp, by simp⟩)
  | setupRdiv ch n =>
    rcases channelOf_cases ch with ⟨rfl, -⟩ | ⟨c, hc, -⟩
    · exact .inl rfl
    · exact .inr (.inr ⟨_, planSetupRdiv_of_legal hc n s, by simp, by simp⟩)
  | setFreq ch p f =>
    rcases channelOf_cases ch with ⟨rfl, -⟩ | ⟨c, hc, -⟩
    · exact .inl rfl
    by_cases h : f = 0#32
    · subst h; exact .inr (.inl (by simp [planOf, planSetFreq, withChannel_some hc]))
    · exact .inr (.inr ⟨_, planSetFreq_of_legal hc p h s, by simp, by simp⟩)
  | enableOutputs en =>
    exact .inr (.inr ⟨_, rfl, by simp, by simp⟩)

/-- Everything a command can do (60_exceptions R162): Validate stops it; its writes are all answered `OK`; one is
answered `ERR`; or it waits for an answer. -/
theorem exec_cases {i : Instr} {s t : State} (h : exec i s = .next t) :
    (∃ c, planOf i s = .fault c ∧ t = s.completed (statusWord c 0 0#8)) ∨
    (∃ pl, planOf i s = .writes pl ∧
      ((∃ rest, s.bus = List.replicate pl.writes.length .ok ++ rest ∧
          t = ((s.wrote pl.writes rest).apply pl.update).completed
            (statusWord .ok pl.writes.length 0#8)) ∨
        (∃ pre w post rest, pl.writes = pre ++ w :: post ∧
          s.bus = List.replicate pre.length .ok ++ .err :: rest ∧
          t = ((s.wrote pre rest).memWrite w .err).completed
            (statusWord .busError pre.length w.addr)) ∨
        (∃ pre w post, pl.writes = pre ++ w :: post ∧ s.bus = List.replicate pre.length .ok ∧
          t = s.waiting pre (w :: post) pl.update))) := by
  rw [exec_eq_run] at h
  injection h with h
  cases hp : planOf i s with
  | fault c =>
    rw [hp] at h
    exact .inl ⟨c, rfl, h.symm⟩
  | writes pl =>
    rw [hp] at h
    refine .inr ⟨pl, rfl, ?_⟩
    simp only [State.run] at h
    rcases drive_cases s 0 pl.update pl.writes s.bus with ⟨r, h1, h2⟩ | ⟨pre, w, post, r, h1, h2, h3⟩ |
      ⟨pre, w, post, h1, h2, h3⟩
    · refine .inl ⟨r, h1, ?_⟩
      rw [← h, h2, Nat.zero_add]
      rfl
    · refine .inr (.inl ⟨pre, w, post, r, h1, h2, ?_⟩)
      rw [← h, h3, Nat.zero_add]
      rfl
    · refine .inr (.inr ⟨pre, w, post, h1, h2, ?_⟩)
      rw [← h, h3, Nat.zero_add]
      rfl

theorem ne_three_of_channelOf {ch : BitVec 2} {c : Channel} (h : channelOf ch = some c) :
    ch ≠ 3#2 := fun h3 => by rw [(channelOf_eq_none_iff ch).2 h3] at h; cases h

/-- A command is ill-formed exactly when Validate stops it (60_exceptions R158, R159, R162). -/
theorem wellFormed_eq_false_iff (i : Instr) (s : State) :
    i.wellFormed = false ↔ ∃ c, planOf i s = .fault c := by
  cases i with
  | setupPll p mult num denom =>
    by_cases h : denom = 0#20
    · subst h; simp [Instr.wellFormed, denomLegal, planOf, planSetupPll]
    · simp [Instr.wellFormed, denomLegal, planOf, planSetupPll, withDenom_of_ne h, h]
  | setupMs ch p div num denom =>
    rcases channelOf_cases ch with ⟨rfl, -⟩ | ⟨c, hc, -⟩
    · simp [Instr.wellFormed, channelLegal, planOf, planSetupMs]
    by_cases h : denom = 0#20
    · subst h; simp [Instr.wellFormed, denomLegal, planOf, planSetupMs, withChannel_some hc]
    · simp [Instr.wellFormed, denomLegal, channelLegal, ne_three_of_channelOf hc, planOf, planSetupMs,
        withDenom_of_ne h, h, withChannel_some hc]
  | setupRdiv ch n =>
    rcases channelOf_cases ch with ⟨rfl, -⟩ | ⟨c, hc, -⟩
    · simp [Instr.wellFormed, channelLegal, planOf, planSetupRdiv]
    · simp [Instr.wellFormed, channelLegal, ne_three_of_channelOf hc, planOf, planSetupRdiv,
        withChannel_some hc]
  | setFreq ch p f =>
    rcases channelOf_cases ch with ⟨rfl, -⟩ | ⟨c, hc, -⟩
    · simp [Instr.wellFormed, channelLegal, planOf, planSetFreq]
    by_cases h : f = 0#32
    · subst h; simp [Instr.wellFormed, freqLegal, planOf, planSetFreq, withChannel_some hc]
    · simp [Instr.wellFormed, freqLegal, channelLegal, ne_three_of_channelOf hc, planOf, planSetFreq,
        withFreq_of_ne h, h, withChannel_some hc]
  | enableOutputs en => simp [Instr.wellFormed, planOf, planEnableOutputs]

end Sys2Proof.Machine
end

