-- ==== Sys2Proof/Laws/Step.lean ====
section
/-! SUPPORT. What a step can do, once. -/

namespace Sys2Proof.Machine

/-- Everything a step that goes on can do: construct the Device; pass over a foreign write in `IDLE`; go on with
the command in progress; wait; end an illegal word; run a command. -/
theorem step_cases {s t : State} (h : step s = .next t) :
    s.cfg.legal = true ∧
    ((∃ cfg os, s.outside = .reset cfg :: os ∧ cfg.legal = true ∧
        t = ({ s with outside := os }).constructDevice cfg) ∨
      (∃ os, s.outside = .foreignWrite :: os ∧ s.mode = .idle ∧ t = { s with outside := os }) ∨
      (∃ f, s.outside = [] ∧ s.mode = .busy f ∧ t = s.resume f) ∨
      (s.outside = [] ∧ s.mode = .idle ∧ s.port = [] ∧ t = s) ∨
      (∃ w ws why, s.outside = [] ∧ s.mode = .idle ∧ s.port = w :: ws ∧ decode w = .illegal why ∧
        t = ({ s with port := ws }).raise .illegalCommand) ∨
      (∃ w ws i, s.outside = [] ∧ s.mode = .idle ∧ s.port = w :: ws ∧ decode w = .command i ∧
        t = ({ s with port := ws }).run (planOf i { s with port := ws }))) := by
  cases hc : s.cfg.legal with
  | false => rw [step_of_illegal_cfg hc] at h; cases h
  | true =>
    refine ⟨rfl, ?_⟩
    cases ho : s.outside with
    | cons o os =>
      rw [step_of_outside hc ho] at h
      cases o with
      | reset cfg =>
        simp only [State.outsideStep] at h
        split_ifs at h with hl
        injection h with h
        exact .inl ⟨cfg, os, rfl, hl, h.symm⟩
      | foreignWrite =>
        cases hm : s.mode with
        | busy f => simp [State.outsideStep, hm] at h
        | idle =>
          simp only [State.outsideStep, hm] at h
          injection h with h
          exact .inr (.inl ⟨os, rfl, rfl, by rw [← h, ← hm]⟩)
    | nil =>
      cases hm : s.mode with
      | busy f =>
        rw [step_of_busy hc ho hm] at h
        injection h with h
        exact .inr (.inr (.inl ⟨f, rfl, rfl, h.symm⟩))
      | idle =>
        cases hp : s.port with
        | nil =>
          rw [step_of_nothing ⟨hc, ho, hm⟩ hp] at h
          injection h with h
          exact .inr (.inr (.inr (.inl ⟨rfl, rfl, rfl, h.symm⟩)))
        | cons w ws =>
          rw [step_of_word ⟨hc, ho, hm⟩ hp] at h
          cases hd : decode w with
          | illegal why =>
            simp only [State.takeWord, hd] at h
            injection h with h
            exact .inr (.inr (.inr (.inr (.inl
              ⟨w, ws, why, rfl, rfl, rfl, hd, by rw [← h, ← hm, ← ho]⟩))))
          | command i =>
            simp only [State.takeWord, hd, exec_eq_run] at h
            injection h with h
            exact .inr (.inr (.inr (.inr (.inr
              ⟨w, ws, i, rfl, rfl, rfl, hd, by rw [← h, ← hm, ← ho]⟩))))

end Sys2Proof.Machine
end

