-- ==== Sys2Proof/Tests/Slice0.lean ====
section
/-! SUPPORT. The model's own tests: the WellFormed smoke test, the decoder on words written out in the spec, one
step per test on small states with the spec's vectors (95_test_vectors), and for each obligation with hypotheses a
named witness that meets them. Expected values are the spec's. -/

namespace Sys2Proof.Tests

open Sys2Proof Sys2Proof.Machine

/-! ### Helpers -/

/-- The state of an outcome, if it is one. -/
def nextOf (o : Host.Outcome State Fault Refusal) : Option State :=
  match o with
  | .next s => some s
  | .fault _ => none
  | .refused _ => none

/-- Reset, with `n` answers `OK` there. -/
def answered (n : Nat) : State := { State.reset with bus := List.replicate n .ok }

/-- Reset, with PLL A recorded at 800 MHz and these answers there. -/
def pllReady (answers : List Answer) : State := { State.reset with vcoA := 800000000#65, bus := answers }

/-- Reset, with this word presented and `n` answers `OK` there. -/
def presented (w : CmdWord) (n : Nat) : State := { answered n with port := [w] }

/-- What one step appends to the log of a state whose log is empty, as `(address, data)`. -/
def logOf (o : Host.Outcome State Fault Refusal) : Option (List (Nat × Nat)) :=
  (nextOf o).map fun s => s.log.map fun e => (e.addr.toNat, e.data.toNat)

/-- `STATUS` after a step. -/
def statusOf (o : Host.Outcome State Fault Refusal) : Option (BitVec 32) := (nextOf o).map State.status

/-! ### WellFormed: each check refuses an ill-formed term -/

/-- 60_exceptions R158 (a). -/
theorem test_wf_channel_ms : (Instr.setupMs 3#2 .a 100#32 0#20 1#20).wellFormed = false := by decide
theorem test_wf_channel_rdiv : (Instr.setupRdiv 3#2 1#3).wellFormed = false := by decide
theorem test_wf_channel_freq : (Instr.setFreq 3#2 .a 1#32).wellFormed = false := by decide
/-- 60_exceptions R158 (b). -/
theorem test_wf_denom_pll : (Instr.setupPll .a 32#32 0#20 0#20).wellFormed = false := by decide
theorem test_wf_denom_ms : (Instr.setupMs 0#2 .a 32#32 0#20 0#20).wellFormed = false := by decide
/-- 60_exceptions R159. -/
theorem test_wf_freq : (Instr.setFreq 0#2 .a 0#32).wellFormed = false := by decide
theorem test_wf_legal :
    (Instr.setupPll .b 0#32 5#20 3#20).wellFormed = true ∧
    (Instr.setupMs 2#2 .b 0#32 0#20 1#20).wellFormed = true ∧
    (Instr.setupRdiv 2#2 7#3).wellFormed = true ∧
    (Instr.setFreq 2#2 .b 1#32).wellFormed = true ∧
    (Instr.enableOutputs false).wellFormed = true := by decide

/-! ### Decode: words of 95_test_vectors sections 2.6, 2.7 and 3 -/

theorem test_decode_setup_pll :
    decode 0x00000000000000300002000000180041#128 = .command (.setupPll .b 24#32 2#20 3#20) := by decide
theorem test_decode_setup_ms :
    decode 0x000000000000002000010000002D0062#128 = .command (.setupMs 2#2 .b 45#32 1#20 2#20) := by decide
theorem test_decode_setup_rdiv :
    decode 0x00000000000000000000000000000713#128 = .command (.setupRdiv 1#2 7#3) := by decide
theorem test_decode_set_freq :
    decode 0x0000000000000000000000D11A180054#128 = .command (.setFreq 1#2 .b 13703704#32) := by decide
theorem test_decode_enable_outputs :
    decode 0x00000000000000000000000000000085#128 = .command (.enableOutputs true) ∧
    decode 0x00000000000000000000000000000005#128 = .command (.enableOutputs false) := by decide
/-- Written out from the fields of 30_encoding R62: DEN, NUM, ARG, reserved, RX, EN, PLL, CH, OP. -/
theorem test_decode_bits :
    decode (0#40 ++ 0b10000000000000000001#20 ++ 0b01000000000000000000#20 ++
      0b10000000000000000000000000000001#32 ++ 0#5 ++ 0#3 ++ 0#1 ++ 1#1 ++ 0b10#2 ++ 0b0010#4) =
      .command (.setupMs 2#2 .b 0x80000001#32 0x40000#20 0x80001#20) := by decide
theorem test_illegal_opcode :
    decode 0#128 = .illegal .reservedOpcode ∧ decode 0x6#128 = .illegal .reservedOpcode ∧
    decode 0xF#128 = .illegal .reservedOpcode := by decide
theorem test_illegal_bits :
    decode 0x95#128 = .illegal .nonzeroUnusedBit ∧
    decode 0x00000000000000000001000003E80004#128 = .illegal .nonzeroUnusedBit ∧
    decode 0x00000000000000100000000000200801#128 = .illegal .nonzeroUnusedBit ∧
    decode 0x80000000000000100000000000200001#128 = .illegal .nonzeroUnusedBit ∧
    decode 0x43#128 = .illegal .nonzeroUnusedBit := by decide
theorem test_encode :
    encode (.setFreq 2#2 .a 10000#32) = 0x00000000000000000000000027100024#128 ∧
    encode (.setupMs 1#2 .b 36#32 0#20 1#20) = 0x00000000000000100000000000240052#128 := by decide
theorem test_table_word :
    decodeTableWord 128 0x00000000000000100000000000200001 = some (.setupPll .a 32#32 0#20 1#20) ∧
    decodeTableWord 8 0x85 = some (.enableOutputs true) ∧ decodeTableWord 8 0x06 = none := by decide
theorem test_fetch_word :
    statusOf (step ((answered 1).withFetchWord 128 0x85)) = some 0x10#32 := by decide

/-! ### The packer and the bytes: 95_test_vectors V-SRC-1 and section 2.1 -/

theorem test_pack :
    pack 114 250000 875000 = ⟨0x03724#18, 0x7A120#20, 0xD59F8#20⟩ ∧
    pack 10 5 3 = ⟨0x003D5#18, 1#20, 3#20⟩ ∧ pack 0 0 1 = ⟨0x3FE00#18, 0#20, 1#20⟩ := by decide
theorem test_block_bytes :
    blockBytes (pack 44 856480 856481) =
      [0x11#8, 0xA1#8, 0x00#8, 0x14#8, 0x7F#8, 0xDD#8, 0x11#8, 0x21#8] ∧
    blockBytes (pack 800 0 1) = [0x00#8, 0x01#8, 0x01#8, 0x8E#8, 0#8, 0#8, 0#8, 0#8] := by decide
theorem test_unpack :
    unpack (pack 2051 1048574 1048575) = (2051, 1048574, 1048575) ∧ unpack (pack 0 0 1) = (2048, 0, 1) := by
  decide

/-! ### SETUP_PLL: V-SRC-8, section 2.2 -/

theorem test_setup_pll_writes :
    logOf (exec (.setupPll .b 24#32 2#20 3#20) (answered 9)) =
      some [(34, 0x00), (35, 0x03), (36, 0x00), (37, 0x0A), (38, 0x55), (39, 0x00), (40, 0x00), (41, 0x01),
        (177, 0xA0)] ∧
    statusOf (exec (.setupPll .b 24#32 2#20 3#20) (answered 9)) = some 0x90#32 := by decide
theorem test_setup_pll_vco :
    (nextOf (exec (.setupPll .b 24#32 2#20 3#20) (answered 9))).map (fun s => (s.vcoA, s.vcoB)) =
      some (0#65, 616666666#65) ∧
    (nextOf (exec (.setupPll .a 10#32 5#20 3#20) (answered 9))).map State.vcoA = some 291666666#65 := by decide

/-! ### SETUP_MS: section 2.3 -/

theorem test_setup_ms_writes :
    logOf (exec (.setupMs 2#2 .b 45#32 1#20 2#20) (answered 9)) =
      some [(58, 0x00), (59, 0x02), (60, 0x00), (61, 0x14), (62, 0xC0), (63, 0x00), (64, 0x00), (65, 0x00),
        (18, 0x2F)] := by decide
theorem test_setup_ms_p1hi :
    (nextOf (exec (.setupMs 0#2 .a 800#32 0#20 1#20) (answered 9))).map
      (fun s => (s.p1hi0, s.p1hi1, s.bank.read 16)) = some (1#2, 0#2, some 0x4F#8) := by decide

/-! ### SETUP_RDIV: section 2.4 -/

theorem test_setup_rdiv_ms_layout :
    logOf (exec (.setupRdiv 0#2 7#3) { answered 1 with p1hi0 := 3#2 }) = some [(44, 0x73)] := by decide
theorem test_setup_rdiv_zero :
    logOf (exec (.setupRdiv 2#2 0#3)
      { answered 1 with p1hi2 := 2#2, cfg := { Config.default with rdivLowBits := .zero } }) =
      some [(60, 0x00)] := by decide

/-! ### SET_FREQ: V-SRC-3 and the 10,000 Hz and 1,062,417 Hz rows of section 2.5 -/

theorem test_set_freq_7mhz :
    logOf (exec (.setFreq 0#2 .a 7000000#32) (pllReady (List.replicate 10 .ok))) =
      some [(42, 0x59), (43, 0xF8), (44, 0x00), (45, 0x37), (46, 0x24), (47, 0xD7), (48, 0xA1), (49, 0x20),
        (16, 0x0F), (44, 0x00)] := by decide
theorem test_set_freq_staged :
    logOf (exec (.setFreq 2#2 .a 10000#32) (pllReady (List.replicate 10 .ok))) =
      some [(58, 0xC4), (59, 0x00), (60, 0x02), (61, 0x6F), (62, 0x00), (63, 0x90), (64, 0x00), (65, 0x00),
        (18, 0x4F), (60, 0x62)] := by decide
/-- 44_resolver R145: the resolved triples at the edges. -/
theorem test_resolve :
    resolve 800000000 3999 = ⟨0, 200050, 50, 3999⟩ ∧ resolve 800000000 7999 = ⟨7, 781, 355968, 1023872⟩ ∧
    resolve 800000000 1062417 = ⟨0, 752, 531208, 531208⟩ ∧
    resolve 900000000 4294967295 = ⟨0, 0, 219726, 1048575⟩ := by decide

/-! ### ENABLE_OUTPUTS: section 2.6 -/

theorem test_enable_outputs :
    logOf (exec (.enableOutputs true) (answered 1)) = some [(3, 0x00)] ∧
    logOf (exec (.enableOutputs false) (answered 1)) = some [(3, 0xFF)] := by decide

/-! ### Faults: sections 2.7 and 2.8 -/

theorem test_fault_status :
    statusOf (step (presented 0x00000000000000000000000000000006#128 10)) = some 0x1#32 ∧
    statusOf (step (presented 0x00000000000000100000000000640032#128 10)) = some 0x2#32 ∧
    statusOf (step (presented 0x00000000000000000000000000200001#128 10)) = some 0x2#32 ∧
    statusOf (step (presented 0x00000000000000000000000000000034#128 10)) = some 0x2#32 ∧
    statusOf (step (presented 0x00000000000000000000000000000004#128 10)) = some 0x3#32 := by decide
theorem test_bus_error_fourth :
    (nextOf (exec (.setupPll .a 32#32 0#20 1#20)
      { State.reset with bus := [.ok, .ok, .ok, .err, .ok] })).map
      (fun s => (s.status, s.vcoA, s.log.length, s.bank.read 28, s.bank.read 29)) =
      some (0x1D34#32, 0#65, 4, some 0x00#8, none) := by decide
theorem test_bus_error_tenth :
    (nextOf (exec (.setFreq 0#2 .a 7000000#32)
      { pllReady (List.replicate 9 .ok ++ [.err]) with p1hi0 := 1#2 })).map
      (fun s => (s.status, s.p1hi0, s.bank.read 44, s.bank.read 45)) =
      some (0x2C94#32, 1#2, none, some 0x37#8) := by decide

/-! ### Steps: holding, resuming, reset during a command, the two refusals -/

/-- 20_memory R44: three of the nine answers have arrived, so the command waits at its fourth write. -/
theorem test_waits_for_answers :
    (nextOf (step (presented 0x00000000000000100000000000200001#128 3))).map
      (fun s => (s.status, s.log.length, s.port, match s.mode with | .idle => 99 | .busy f => f.done)) =
      some (0#32, 3, [], 3) := by decide
theorem test_reset_during_command :
    (nextOf (step { State.reset with
      mode := .busy ⟨1, [⟨3#8, 0#8⟩], .nothing⟩, vcoA := 5#65, outside := [.reset Config.default] })).map
      (fun s => (s.mode, s.vcoA, s.outside, s.log)) = some (.idle, 0#65, [], []) := by decide
/-- 20_memory R57. -/
theorem test_interleaved_write :
    step { State.reset with mode := .busy ⟨0, [⟨3#8, 0#8⟩], .nothing⟩, outside := [.foreignWrite] } =
      .refused .interleavedWrite := rfl
/-- 30_encoding R69. -/
theorem test_illegal_configuration :
    step { State.reset with cfg := { Config.default with clkCtrlBase := 0x4F#8 } } =
      .refused .illegalConfiguration := rfl

/-! ### The assembler: 95_test_vectors section 3 -/

theorem test_assemble :
    assembleWord "setup_pll A, 32" = some 0x00000000000000100000000000200001#128 ∧
    assembleWord "set_freq 0, A, 0x6ACFC0" = some 0x00000000000000000000006ACFC00004#128 ∧
    assembleWord "setup_ms 2, B, 45, 1, 2" = some 0x000000000000002000010000002D0062#128 ∧
    assembleWord "setup_rdiv 1, 7" = some 0x00000000000000000000000000000713#128 ∧
    assembleWord "enable_outputs 1" = some 0x00000000000000000000000000000085#128 := by decide
theorem test_assemble_errors :
    assembleLine "setup_rdiv 1, 8" = .error .doesNotFit ∧ assembleLine "SET_FREQ 0, A, 1" = .error .unknownMnemonic ∧
    assembleLine "set_freq 0, 0, 1" = .error .wrongOperands ∧
    assembleLine "set_freq 0, C, 1" = .error .unreadableOperand := by decide

/-! ### Witnesses: concrete states and operands that meet the hypotheses of each obligation -/

theorem witness_DecodeFollowsTheRows : ∀ o, matchBits o &&& maskBits o = matchBits o := by
  intro o; cases o <;> decide
/-- Also of EncodeOfDecode: a word of each constructor that decodes. -/
theorem witness_OperandsSitAtTheirBits : ∀ o, ∃ i, decode (matchBits o) = .command i := by
  intro o; cases o <;> exact ⟨_, rfl⟩
/-- Also of IllegalCommandIsRaised and CompletionCodes: words under each head. -/
theorem witness_IllegalWords :
    decode 0x6#128 = .illegal .reservedOpcode ∧ decode 0x43#128 = .illegal .nonzeroUnusedBit := by decide
theorem witness_PackGivesTheFields : ((1 : Nat) ≤ 1048575 ∧ (1048575 : Nat) ≤ 1048575) ∧ (1 : Nat) ≤ 2097151 := by
  decide
/-- On both edges of the law's domain and beyond each. -/
theorem witness_UnpackOfPack :
    (1048574 : Nat) < 1048575 ∧ ((4 : Nat) ≤ 4 ∧ 4 ≤ 2051) ∧ ((4 : Nat) ≤ 2051 ∧ 2051 ≤ 2051) ∧
    (unpack (pack 3 0 1)).1 = 2051 ∧ (unpack (pack 2052 0 1)).1 = 4 := by decide
theorem witness_PackOfEqualFraction : (1 : Nat) ≤ 1 ∧ blockBytes (pack 0 1 1) = blockBytes (pack 1 0 1) := by decide
theorem witness_BlockBytesLayout : blockBytes (pack 752 1 1) = blockBytes (pack 753 0 1) := by decide
theorem witness_ClockControlByte :
    Config.default.legal = true ∧ Config.default.clkCtrlBase = 0x0F#8 ∧ (1 : Nat) ≠ 0 ∧
    ({ Config.default with clkCtrlBase := 0x9F#8 } : Config).legal = true := by decide
theorem witness_RdivByteLayout :
    Config.default.rdivLowBits = .msLayout ∧
    ({ Config.default with rdivLowBits := .zero } : Config).rdivLowBits = .zero := by decide
/-- The first and the last frequency of the first and of the last band, and those just outside. -/
theorem witness_StageFollowsTheBands :
    (0 ≤ 6 ∧ 4000 * 2 ^ 0 ≤ 4000 ∧ 7999 < 4000 * 2 ^ (0 + 1)) ∧
    (6 ≤ 6 ∧ 4000 * 2 ^ 6 ≤ 256000 ∧ 511999 < 4000 * 2 ^ (6 + 1)) ∧ (3999 < 4000) ∧ (512000 ≤ 512000) := by
  decide
/-- With no halving, and with the most halvings a frequency can take. -/
theorem witness_ReduceProperties :
    (0 : Nat) < 1 ∧ (1048574 : Nat) < 1048575 ∧ (4294967294 : Nat) < 4294967295 ∧ 4294967295 < 2 ^ 32 := by decide
theorem witness_ResolveIsWithinBounds :
    (1 : Nat) ≤ 1 ∧ (4000 : Nat) ≤ 4000 ∧ 511999 < 512000 ∧
    (resolve 800000000 1062417).num = (resolve 800000000 1062417).den := by decide
theorem witness_ResetMeetsTheInvariant : Config.default.legal = true := by decide
theorem witness_ResetDuringCommand :
    let s : State := { State.reset with
      mode := .busy ⟨0, [⟨3#8, 0#8⟩], .nothing⟩, outside := [.reset Config.default] }
    s.cfg.legal = true ∧ Config.default.legal = true ∧ s.outside = .reset Config.default :: [] := by decide

/-- All nine answers, and only eight of them. Also of VcoRecordIsExact. -/
theorem witness_SetupPllResult :
    (1#20 : BitVec 20) ≠ 0#20 ∧ (answered 9).bus = List.replicate 9 .ok ++ [] ∧
    ¬ List.replicate 9 Answer.ok <+: (answered 8).bus := by decide
theorem witness_VcoRecordIsExact :
    (0xFFFFF#20 : BitVec 20) ≠ 0#20 ∧ (answered 9).bus = List.replicate 9 .ok ++ [] := by decide
theorem witness_SetupMsResult :
    channelOf 0#2 = some .ch0 ∧ channelOf 2#2 = some .ch2 ∧ (1#20 : BitVec 20) ≠ 0#20 ∧
    (answered 9).bus = List.replicate 9 .ok ++ [] := by decide
theorem witness_SetupRdivResult : channelOf 1#2 = some .ch1 ∧ (answered 2).bus = .ok :: [.ok] := by decide
theorem witness_SetFreqResult :
    channelOf 2#2 = some .ch2 ∧ (1#32 : BitVec 32) ≠ 0#32 ∧ (answered 10).bus = List.replicate 10 .ok ++ [] := by
  decide
theorem witness_EnableOutputsResult : (answered 1).bus = .ok :: [] := by decide
theorem witness_SetFreqOnUnconfiguredPll :
    channelOf 0#2 = some .ch0 ∧ (7000000#32 : BitVec 32) ≠ 0#32 ∧ (answered 10).vco .a = 0#65 ∧
    (answered 10).bus = List.replicate 10 .ok ++ [] := by decide
theorem witness_SetFreqIsSetupMsThenSetupRdiv :
    let s := pllReady (List.replicate 10 .ok)
    channelOf 0#2 = some .ch0 ∧ (7000000#32 : BitVec 32) ≠ 0#32 ∧ s.bus = List.replicate 10 .ok ++ [] ∧
    (resolve (s.vco .a).toNat 7000000).div < 2 ^ 32 := by decide
theorem witness_RdivFieldAfterMultisynthWrite :
    channelOf 0#2 = some .ch0 ∧ (1#20 : BitVec 20) ≠ 0#20 ∧ (1#32 : BitVec 32) ≠ 0#32 ∧
    clkCtrlAddr (answered 9).cfg .ch0 ≠ rdivAddr .ch0 ∧ (answered 9).bus = List.replicate 9 .ok ++ [] ∧
    (answered 10).bus = List.replicate 10 .ok ++ [] := by decide
theorem witness_ZeroFrequencyIsRaised : (0#2 : BitVec 2) ≠ 3#2 ∧ (2#2 : BitVec 2) ≠ 3#2 := by decide
/-- The only write of a command fails. -/
theorem witness_BusErrorIsPrecise :
    let s : State := { State.reset with bus := [.err] }
    planOf (.enableOutputs true) s = .writes ⟨[] ++ ⟨3#8, 0#8⟩ :: [], .nothing⟩ ∧
    s.bus = List.replicate ([] : List Write).length .ok ++ .err :: [] := by decide

/-- One state for each code: OK, ILLEGAL_OPERAND, ZERO_FREQUENCY, BUS_ERROR. -/
theorem witness_CompletionCodes :
    (∃ t, exec (.enableOutputs true) (answered 1) = .next t ∧ t.mode = .idle ∧ statusCode t.status = 0#4) ∧
    (∃ t, exec (.setupRdiv 3#2 1#3) (answered 0) = .next t ∧ t.mode = .idle ∧ t.status = 2#32) ∧
    (∃ t, exec (.setFreq 2#2 .b 0#32) (answered 0) = .next t ∧ t.mode = .idle ∧ t.status = 3#32) ∧
    (∃ t, exec (.enableOutputs true) { State.reset with bus := [.err] } = .next t ∧ t.mode = .idle ∧
      statusCode t.status = 4#4) :=
  ⟨⟨_, rfl, by decide⟩, ⟨_, rfl, by decide⟩, ⟨_, rfl, by decide⟩, ⟨_, rfl, by decide⟩⟩
theorem witness_IllegalCommandIsRaised :
    (presented 0x6#128 0).ready ∧ (presented 0x6#128 0).port = 0x6#128 :: [] ∧
    decode 0x6#128 = .illegal .reservedOpcode := ⟨⟨by decide, rfl, rfl⟩, rfl, by decide⟩
theorem witness_StatusWordFields : (0 : Nat) < 16 ∧ 10 < 16 ∧ statusWord .busError 3 29#8 = 0x1D34#32 := by decide
/-- For every command, answered in full or not at all. Also of WritesOnlyItsAddresses, RepeatedCommandWritesTheSame
and AnswerArrivalDoesNotMatter. -/
theorem witness_ExecFrame : ∀ i n, ∃ t, exec i (answered n) = .next t := by
  intro i n; cases i <;> exact ⟨_, rfl⟩
/-- A frame with something in it: SETUP_RDIV leaves address 26 and VCO[A] of a state that holds both. -/
theorem witness_ExecFrame_kept :
    (nextOf (exec (.setupRdiv 0#2 1#3)
      { answered 1 with vcoA := 5#65, bank := [(26, 0x12#8)] })).map
      (fun t => (t.vcoA, t.bank.read 26, t.bank.read 44)) = some (5#65, some 0x12#8, some 0x10#8) := by decide
theorem witness_WritesOnlyItsAddresses :
    (Instr.setupRdiv 3#2 0#3).wellFormed = false ∧
    ∃ t, exec (.setupRdiv 0#2 0#3) (answered 1) = .next t ∧ (Instr.setupRdiv 0#2 0#3).wellFormed = true ∧
      t.mode = .idle ∧ statusCode t.status = 0#4 := ⟨by decide, _, rfl, by decide⟩
/-- Two states that differ elsewhere. -/
theorem witness_RepeatedCommandWritesTheSame :
    let s := pllReady []
    let t : State := { s with vcoB := 7#65, p1hi2 := 3#2, status := 0x90#32 }
    s.cfg = t.cfg ∧ s.vco .a = t.vco .a ∧ s.p1hi .ch0 = t.p1hi .ch0 ∧ s ≠ t := by decide
theorem witness_StepRunsTheDecodedCommand :
    (presented 0x85#128 1).ready ∧ (presented 0x85#128 1).port = 0x85#128 :: [] ∧
    decode 0x85#128 = .command (.enableOutputs true) := ⟨⟨by decide, rfl, rfl⟩, rfl, by decide⟩
theorem witness_BusyWaitsForTheAnswer :
    planOf (.enableOutputs true) State.reset = .writes ⟨[] ++ ⟨3#8, 0#8⟩ :: [], .nothing⟩ ∧
    State.reset.bus = List.replicate ([] : List Write).length .ok ∧ State.reset.cfg.legal = true ∧
    State.reset.outside = [] := by decide
/-- A command given part of its answers waits; one given all of them is idle. -/
theorem witness_AnswerArrivalDoesNotMatter :
    State.reset.cfg.legal = true ∧ State.reset.outside = [] ∧
    (∃ t f, exec (.enableOutputs true) { State.reset with bus := [] } = .next t ∧ t.mode = .busy f) ∧
    ∃ t, exec (.enableOutputs true) { State.reset with bus := [.ok] } = .next t ∧ t.mode = .idle :=
  ⟨by decide, rfl, ⟨_, _, rfl, rfl⟩, _, rfl, rfl⟩
/-- Also of LogGrowsByAnsweredWrites and XtalAndBusaddrAreFixed: a step that takes a word and writes. -/
theorem witness_PortIsServedInOrderInIdle :
    ∃ t, step (presented 0x85#128 1) = .next t ∧ t.port = [] ∧ t.log.length = 1 := ⟨_, rfl, by decide⟩
theorem witness_XtalAndBusaddrAreFixed :
    ∃ t, step { State.reset with outside := [.reset { Config.default with xtalHz := 27000000#32 }] } = .next t ∧
      t.xtal = 27000000#32 := ⟨_, rfl, by decide⟩
/-- A step from the port, one of a command in progress, and a reset that change `VCO[A]`. -/
theorem witness_OnlySetupPllChangesVco :
    (∃ t, step (presented 0x00000000000000100000000000200001#128 9) = .next t ∧
      t.vco .a ≠ (presented 0x00000000000000100000000000200001#128 9).vco .a) ∧
    (∃ t, step { answered 1 with mode := .busy ⟨8, [⟨177#8, 0xA0#8⟩], .recordVco .a 5#65⟩ } = .next t ∧
      t.vco .a ≠ 0#65) ∧
    ∃ t, step { pllReady [] with outside := [.reset Config.default] } = .next t ∧ t.vco .a ≠ 800000000#65 :=
  ⟨⟨_, rfl, by decide⟩, ⟨_, rfl, by decide⟩, _, rfl, by decide⟩
/-- SETUP_MS `0, A, 800`, and SET_FREQ of an unconfigured PLL, change `P1HI[0]`. -/
theorem witness_OnlyMultisynthWritesChangeP1hi :
    (∃ t, step (presented 0x00000000000000100000000003200002#128 9) = .next t ∧ t.p1hi .ch0 = 1#2) ∧
    ∃ t, step (presented 0x00000000000000000000006ACFC00004#128 10) = .next t ∧ t.p1hi .ch0 = 3#2 :=
  ⟨⟨_, rfl, by decide⟩, _, rfl, by decide⟩
theorem witness_ForeignWriteInIdle :
    let s : State := { State.reset with outside := [.foreignWrite] }
    s.cfg.legal = true ∧ s.mode = .idle ∧ s.outside = .foreignWrite :: [] := by decide
/-- The invariant holds of reset with a word and answers there, and its step goes on. -/
theorem witness_StepKeepsTheInvariant :
    (presented 0x85#128 1).Inv ∧ ∃ t, step (presented 0x85#128 1) = .next t ∧ t.bank = [(3, 0#8)] := by
  refine ⟨⟨by decide, rfl, rfl, by decide, ?_, rfl, rfl, ?_, fun a => rfl⟩, _, rfl, rfl⟩
  · intro r hr; cases hr
  · intro c hc; cases hc
/-- A word at the port with ten answers; a command in progress with one write left and one answer. -/
theorem witness_AnsweredCommandCompletes :
    ((presented 0x85#128 10).ready ∧ (presented 0x85#128 10).port = 0x85#128 :: [] ∧
      10 ≤ (presented 0x85#128 10).bus.length) ∧
    let s : State := { answered 1 with mode := .busy ⟨0, [⟨3#8, 0#8⟩], .nothing⟩ }
    s.cfg.legal = true ∧ s.outside = [] ∧ s.mode = .busy ⟨0, [⟨3#8, 0#8⟩], .nothing⟩ ∧ 1 ≤ s.bus.length :=
  ⟨⟨⟨by decide, rfl, rfl⟩, rfl, by decide⟩, by decide⟩
/-- Two words and twenty answers. -/
theorem witness_CommandListRunsToItsEnd :
    let s : State := { answered 20 with port := [0x85#128, 0x5#128] }
    s.ready ∧ 10 * s.port.length ≤ s.bus.length := ⟨⟨by decide, rfl, rfl⟩, by decide⟩

end Sys2Proof.Tests
end

section
/-! The Device as it is constructed (10_state R32): each piece of its state, and from these the values after reset. -/

namespace Sys2Proof.Machine

/-! ### The pieces of a constructed Device -/

section
variable (cfg : Config)

@[simp] theorem State.construct_cfg : (State.construct cfg).cfg = cfg := rfl
@[simp] theorem State.construct_xtal : (State.construct cfg).xtal = cfg.xtalHz := rfl
@[simp] theorem State.construct_busaddr : (State.construct cfg).busaddr = cfg.busAddr := rfl
@[simp] theorem State.construct_status : (State.construct cfg).status = 0#32 := rfl
@[simp] theorem State.construct_mode : (State.construct cfg).mode = .idle := rfl
@[simp] theorem State.construct_bank : (State.construct cfg).bank = [] := rfl
@[simp] theorem State.construct_vco (p : Pll) : (State.construct cfg).vco p = 0#65 := by
  cases p <;> rfl
@[simp] theorem State.construct_p1hi (c : Channel) : (State.construct cfg).p1hi c = 0#2 := by
  cases c <;> rfl

/-- Nothing is known of the bank: "The block does not reset or write the chip at reset" (10_state R32). -/
theorem State.read_bank_construct (a : Nat) : (State.construct cfg).bank.read a = none := by
  rw [State.construct_bank, Memory.read_nil]

end

/-- The configuration of `State.reset` is the one it is constructed with, so nothing of it is lost. -/
theorem State.construct_reset_cfg : State.construct State.reset.cfg = State.reset := by
  rw [State.reset, State.construct_cfg]

/-! ### The values after reset -/

/-- Settles O17: the construction sets each register to a constant or to a parameter, and its bank image is
empty, which reads as unknown everywhere. -/
theorem resetValues : Obligations.ResetValues := by
  unfold Obligations.ResetValues
  refine ⟨fun cfg => ?construct, State.construct_reset_cfg.symm⟩
  case construct =>
    exact ⟨State.construct_xtal cfg, State.construct_busaddr cfg, State.construct_vco cfg,
      State.construct_p1hi cfg, State.construct_status cfg, State.construct_mode cfg,
      fun a => State.read_bank_construct cfg a.toNat⟩

end Sys2Proof.Machine
end

section
/-! The rows of the match and mask table read field by field (30_encoding R62 to R64), the decoder in terms of the
rows (R65), and from these which words are commands, which are illegal, and where the operands sit. -/

namespace Sys2Proof

/-! ### What a row asks of a word, field by field -/

/-- The number of an opcode (30_encoding R63). -/
@[simp] def Opcode.code : Opcode → BitVec 4
  | .setupPll => 0x1#4
  | .setupMs => 0x2#4
  | .setupRdiv => 0x3#4
  | .setFreq => 0x4#4
  | .enableOutputs => 0x5#4

/-- The commands with a channel operand. -/
@[simp] def Opcode.usesCh : Opcode → Bool
  | .setupMs | .setupRdiv | .setFreq => true
  | .setupPll | .enableOutputs => false

/-- The commands that name a PLL. -/
@[simp] def Opcode.usesPll : Opcode → Bool
  | .setupPll | .setupMs | .setFreq => true
  | .setupRdiv | .enableOutputs => false

/-- The command with an enable flag. -/
@[simp] def Opcode.usesEn : Opcode → Bool
  | .enableOutputs => true
  | .setupPll | .setupMs | .setupRdiv | .setFreq => false

/-- The command with an R-divider exponent. -/
@[simp] def Opcode.usesRx : Opcode → Bool
  | .setupRdiv => true
  | .setupPll | .setupMs | .setFreq | .enableOutputs => false

/-- The commands with a 32-bit argument. -/
@[simp] def Opcode.usesArg : Opcode → Bool
  | .setupPll | .setupMs | .setFreq => true
  | .setupRdiv | .enableOutputs => false

/-- The commands with a fraction, in `NUM` and `DEN`. -/
@[simp] def Opcode.usesFraction : Opcode → Bool
  | .setupPll | .setupMs => true
  | .setupRdiv | .setFreq | .enableOutputs => false

/-- The mask of a field: it lets a used field take any value, and holds an unused one to 0. -/
def fieldMask (n : Nat) (used : Bool) : BitVec n := if used then 0#n else BitVec.allOnes n

theorem and_fieldMask_eq_zero_iff {n : Nat} (x : BitVec n) (used : Bool) :
    x &&& fieldMask n used = 0#n ↔ (used = false → x = 0#n) := by
  cases used <;> simp [fieldMask]

/-- What a row's mask and match say about one field above `OP`: nothing where the row uses the field, and that it
is 0 where the row does not. -/
theorem field_of_row_iff {start len : Nat} {used : Bool} {o : Opcode} (w : CmdWord)
    (hmask : (maskBits o).extractLsb' start len = fieldMask len used)
    (hmatch : (matchBits o).extractLsb' start len = 0#len) :
    (w &&& maskBits o).extractLsb' start len = (matchBits o).extractLsb' start len ↔
      (used = false → w.extractLsb' start len = 0#len) := by
  rw [extractLsb'_and, hmask, hmatch, and_fieldMask_eq_zero_iff]

theorem reserved_of_row_iff {start len : Nat} {o : Opcode} (w : CmdWord)
    (hmask : (maskBits o).extractLsb' start len = fieldMask len false)
    (hmatch : (matchBits o).extractLsb' start len = 0#len) :
    (w &&& maskBits o).extractLsb' start len = (matchBits o).extractLsb' start len ↔
      w.extractLsb' start len = 0#len := by
  simp [field_of_row_iff w hmask hmatch]

theorem fieldOp_of_row_iff (w : CmdWord) (o : Opcode) :
    fieldOp (w &&& maskBits o) = fieldOp (matchBits o) ↔ fieldOp w = o.code := by
  have hmask : fieldOp (maskBits o) = BitVec.allOnes 4 := by cases o <;> rfl
  have hmatch : fieldOp (matchBits o) = o.code := by cases o <;> rfl
  have hand : fieldOp (w &&& maskBits o) = fieldOp w &&& fieldOp (maskBits o) := extractLsb'_and ..
  rw [hand, hmask, hmatch, BitVec.and_allOnes]

/-- Two words are the same if and only if their ten fields are. -/
theorem word_eq_iff_fields_eq (v w : CmdWord) :
    v = w ↔ fieldOp v = fieldOp w ∧ fieldCh v = fieldCh w ∧ fieldPll v = fieldPll w ∧
      fieldEn v = fieldEn w ∧ fieldRx v = fieldRx w ∧ fieldLowReserved v = fieldLowReserved w ∧
      fieldArg v = fieldArg w ∧ fieldNum v = fieldNum w ∧ fieldDen v = fieldDen w ∧
      fieldHighReserved v = fieldHighReserved w := by
  constructor
  · rintro rfl
    simp only [and_self]
  · rintro ⟨hop, hch, hpll, hen, hrx, hlow, harg, hnum, hden, hhigh⟩
    exact word_eq_of_fields_eq hop hch hpll hen hrx hlow harg hnum hden hhigh

/-- R64: a word is the command of a row when `OP` is the row's opcode and every field the row does not use,
reserved bits included, is 0. -/
theorem and_maskBits_eq_matchBits_iff (w : CmdWord) (o : Opcode) :
    w &&& maskBits o = matchBits o ↔
      fieldOp w = o.code ∧ (o.usesCh = false → fieldCh w = 0#2) ∧
        (o.usesPll = false → fieldPll w = 0#1) ∧ (o.usesEn = false → fieldEn w = 0#1) ∧
        (o.usesRx = false → fieldRx w = 0#3) ∧ fieldLowReserved w = 0#5 ∧
        (o.usesArg = false → fieldArg w = 0#32) ∧ (o.usesFraction = false → fieldNum w = 0#20) ∧
        (o.usesFraction = false → fieldDen w = 0#20) ∧ fieldHighReserved w = 0#40 := by
  rw [word_eq_iff_fields_eq, fieldOp_of_row_iff]
  refine and_congr_right' (and_congr ?ch (and_congr ?pll (and_congr ?en (and_congr ?rx
    (and_congr ?low (and_congr ?arg (and_congr ?num (and_congr ?den ?high))))))))
  case ch | pll | en | rx | arg | num | den => apply field_of_row_iff <;> cases o <;> rfl
  case low | high => apply reserved_of_row_iff <;> cases o <;> rfl

/-! ### The decoder in terms of the rows (30_encoding R65) -/

theorem Opcode.code_injective : Function.Injective Opcode.code := by
  intro o o' h
  revert h
  cases o <;> cases o' <;> decide

@[simp] theorem opcodeInUse_code (o : Opcode) : opcodeInUse o.code = true := by cases o <;> rfl

theorem fieldOp_of_row {w : CmdWord} {o : Opcode} (h : w &&& maskBits o = matchBits o) :
    fieldOp w = o.code :=
  ((and_maskBits_eq_matchBits_iff w o).1 h).1

/-- At most one row matches a word: the rows differ in `OP`. -/
theorem row_unique {w : CmdWord} {o o' : Opcode} (h : w &&& maskBits o = matchBits o)
    (h' : w &&& maskBits o' = matchBits o') : o = o' :=
  Opcode.code_injective ((fieldOp_of_row h).symm.trans (fieldOp_of_row h'))

theorem mem_rows (o : Opcode) : o ∈ rows := by cases o <;> decide

theorem matchesRow_iff (w : CmdWord) (o : Opcode) :
    matchesRow w o = true ↔ w &&& maskBits o = matchBits o := beq_iff_eq

/-- A word that matches a row is read by that row. -/
theorem decode_of_row {w : CmdWord} {o : Opcode} (h : w &&& maskBits o = matchBits o) :
    decode w = .command (readRow w o) := by
  obtain ⟨o', ho'⟩ : ∃ o', rows.find? (matchesRow w) = some o' :=
    Option.isSome_iff_exists.1 (List.find?_isSome.2 ⟨o, mem_rows o, (matchesRow_iff w o).2 h⟩)
  have hrow : w &&& maskBits o' = matchBits o' := (matchesRow_iff w o').1 (List.find?_some ho')
  rw [decode, ho', row_unique hrow h]

/-- A word that matches no row is illegal, under the head its `OP` gives. -/
theorem decode_of_no_row {w : CmdWord} (h : ∀ o, w &&& maskBits o ≠ matchBits o) :
    decode w = .illegal (if opcodeInUse (fieldOp w) then .nonzeroUnusedBit else .reservedOpcode) := by
  have hnone : rows.find? (matchesRow w) = none :=
    List.find?_eq_none.2 fun o _ ho => h o ((matchesRow_iff w o).1 ho)
  rw [decode, hnone]

/-- A word decodes to a command exactly when a row matches it, and the row's fields are the command. -/
theorem decode_eq_command_iff (w : CmdWord) (i : Instr) :
    decode w = .command i ↔ ∃ o, w &&& maskBits o = matchBits o ∧ readRow w o = i := by
  constructor
  · intro h
    by_cases hrow : ∃ o, w &&& maskBits o = matchBits o
    · obtain ⟨o, ho⟩ := hrow
      rw [decode_of_row ho] at h
      exact ⟨o, ho, Decoded.command.inj h⟩
    · rw [decode_of_no_row (not_exists.1 hrow)] at h
      cases h
  · rintro ⟨o, ho, rfl⟩
    exact decode_of_row ho

/-- A word is illegal exactly when no row matches it. -/
theorem decode_eq_illegal_iff (w : CmdWord) (why : Illegal) :
    decode w = .illegal why ↔ (∀ o, w &&& maskBits o ≠ matchBits o) ∧
      why = if opcodeInUse (fieldOp w) then .nonzeroUnusedBit else .reservedOpcode := by
  constructor
  · intro h
    have hno : ∀ o, w &&& maskBits o ≠ matchBits o := by
      intro o ho
      rw [decode_of_row ho] at h
      cases h
    rw [decode_of_no_row hno] at h
    exact ⟨hno, (Decoded.illegal.inj h).symm⟩
  · rintro ⟨hno, rfl⟩
    exact decode_of_no_row hno

@[simp] theorem opcode_readRow (w : CmdWord) (o : Opcode) : (readRow w o).opcode = o := by
  cases o <;> rfl

/-- A word decodes to a command of an opcode exactly when it matches that opcode's row. -/
theorem decode_opcode_iff (w : CmdWord) (o : Opcode) :
    (∃ i, decode w = .command i ∧ i.opcode = o) ↔ w &&& maskBits o = matchBits o := by
  constructor
  · rintro ⟨i, hi, rfl⟩
    obtain ⟨o, ho, rfl⟩ := (decode_eq_command_iff w i).1 hi
    rwa [opcode_readRow]
  · intro h
    exact ⟨readRow w o, decode_of_row h, opcode_readRow w o⟩

/-- Settles O2: R64 field by field, for each of the five rows. -/
theorem decodeFollowsTheRows : Obligations.DecodeFollowsTheRows := by
  unfold Obligations.DecodeFollowsTheRows
  refine ⟨decode_opcode_iff, fun w o o' => row_unique, ?pll, ?ms, ?rdiv, ?freq, ?enable⟩
  all_goals
    intro w
    simp [and_maskBits_eq_matchBits_iff]

end Sys2Proof
end

section
/-! The places of the fields in the word's number (30_encoding R62), and the operands of a decoded command. -/

namespace Sys2Proof

/-- A field of a bit vector is read from its number by division (30_encoding R62: unsigned, neither scaled nor
shifted). -/
theorem toNat_extractLsb' {n : Nat} (start len : Nat) (x : BitVec n) :
    (x.extractLsb' start len).toNat = x.toNat / 2 ^ start % 2 ^ len := by
  rw [BitVec.extractLsb'_toNat, Nat.shiftRight_eq_div_pow]

/-- The topmost field of a bit vector: nothing stands above it to be cut off. -/
theorem toNat_extractLsb'_top (start len : Nat) (x : BitVec (start + len)) :
    (x.extractLsb' start len).toNat = x.toNat / 2 ^ start := by
  have hlt : x.toNat / 2 ^ start < 2 ^ len :=
    Nat.div_lt_of_lt_mul (by rw [← Nat.pow_add]; exact x.isLt)
  rw [toNat_extractLsb', Nat.mod_eq_of_lt hlt]

section
variable (w : CmdWord)

theorem toNat_fieldOp : (fieldOp w).toNat = w.toNat % 2 ^ 4 := by
  rw [fieldOp, toNat_extractLsb', pow_zero, Nat.div_one]

theorem toNat_fieldCh : (fieldCh w).toNat = w.toNat / 2 ^ 4 % 4 := toNat_extractLsb' 4 2 w

theorem toNat_fieldPll : (fieldPll w).toNat = w.toNat / 2 ^ 6 % 2 := toNat_extractLsb' 6 1 w

theorem toNat_fieldEn : (fieldEn w).toNat = w.toNat / 2 ^ 7 % 2 := toNat_extractLsb' 7 1 w

theorem toNat_fieldRx : (fieldRx w).toNat = w.toNat / 2 ^ 8 % 8 := toNat_extractLsb' 8 3 w

theorem toNat_fieldLowReserved : (fieldLowReserved w).toNat = w.toNat / 2 ^ 11 % 2 ^ 5 :=
  toNat_extractLsb' 11 5 w

theorem toNat_fieldArg : (fieldArg w).toNat = w.toNat / 2 ^ 16 % 2 ^ 32 := toNat_extractLsb' 16 32 w

theorem toNat_fieldNum : (fieldNum w).toNat = w.toNat / 2 ^ 48 % 2 ^ 20 := toNat_extractLsb' 48 20 w

theorem toNat_fieldDen : (fieldDen w).toNat = w.toNat / 2 ^ 68 % 2 ^ 20 := toNat_extractLsb' 68 20 w

theorem toNat_fieldHighReserved : (fieldHighReserved w).toNat = w.toNat / 2 ^ 88 :=
  toNat_extractLsb'_top 88 40 w

theorem bit_eq_one_iff (x : BitVec 1) : x = 1#1 ↔ x.toNat = 1 := BitVec.toNat_inj.symm

theorem pllOfBit_eq_b_iff (x : BitVec 1) : pllOfBit x = .b ↔ x = 1#1 := by simp [pllOfBit]

/-- The PLL named is B exactly when bit 6 is set. -/
theorem pll_eq_b_iff : pllOfBit (fieldPll w) = .b ↔ w.toNat / 2 ^ 6 % 2 = 1 := by
  rw [pllOfBit_eq_b_iff, bit_eq_one_iff, toNat_fieldPll]

/-- The enable flag is set exactly when bit 7 is. -/
theorem en_eq_true_iff : (fieldEn w == 1#1) = true ↔ w.toNat / 2 ^ 7 % 2 = 1 := by
  rw [beq_iff_eq, bit_eq_one_iff, toNat_fieldEn]

end

/-- The number of a row's opcode is the word's low four bits. -/
theorem toNat_mod_of_row {w : CmdWord} {o : Opcode} (h : w &&& maskBits o = matchBits o) :
    w.toNat % 2 ^ 4 = o.code.toNat := by
  rw [← toNat_fieldOp, fieldOp_of_row h]

/-- The reserved bits of a word that matches a row are 0. -/
theorem reserved_zero_of_row {w : CmdWord} {o : Opcode} (h : w &&& maskBits o = matchBits o) :
    w.toNat / 2 ^ 11 % 2 ^ 5 = 0 ∧ w.toNat / 2 ^ 88 = 0 := by
  obtain ⟨-, -, -, -, -, hlow, -, -, -, hhigh⟩ := (and_maskBits_eq_matchBits_iff w o).1 h
  rw [← toNat_fieldLowReserved, ← toNat_fieldHighReserved, hlow, hhigh]
  exact ⟨rfl, rfl⟩

/-- Settles O3: a decoded command is what its row reads, and each field of the row has its place. -/
theorem operandsSitAtTheirBits : Obligations.OperandsSitAtTheirBits := by
  unfold Obligations.OperandsSitAtTheirBits
  intro w i hi
  obtain ⟨o, hrow, rfl⟩ := (decode_eq_command_iff w i).1 hi
  refine ⟨reserved_zero_of_row hrow, ?_⟩
  have hop := toNat_mod_of_row hrow
  cases o with
  | setupPll =>
    exact ⟨hop, pll_eq_b_iff w, toNat_fieldArg w, toNat_fieldNum w, toNat_fieldDen w⟩
  | setupMs =>
    exact ⟨hop, toNat_fieldCh w, pll_eq_b_iff w, toNat_fieldArg w, toNat_fieldNum w, toNat_fieldDen w⟩
  | setupRdiv => exact ⟨hop, toNat_fieldCh w, toNat_fieldRx w⟩
  | setFreq => exact ⟨hop, toNat_fieldCh w, pll_eq_b_iff w, toNat_fieldArg w⟩
  | enableOutputs => exact ⟨hop, en_eq_true_iff w⟩

end Sys2Proof
end

section
/-! Illegal words (30_encoding R66): under which head each is illegal, and how taking one completes. -/

namespace Sys2Proof.Machine

theorem opcodeInUse_eq_true_iff (op : BitVec 4) :
    opcodeInUse op = true ↔ 1 ≤ op.toNat ∧ op.toNat ≤ 5 := by
  simp [opcodeInUse]

theorem opcodeInUse_eq_false_iff (op : BitVec 4) :
    opcodeInUse op = false ↔ op = 0x0#4 ∨ 0x6 ≤ op.toNat := by
  revert op
  decide

/-- No row matches a word whose opcode is not in use. -/
theorem no_row_of_not_inUse {w : CmdWord} (h : opcodeInUse (fieldOp w) = false) (o : Opcode) :
    w &&& maskBits o ≠ matchBits o := by
  intro hrow
  rw [fieldOp_of_row hrow, opcodeInUse_code] at h
  cases h

theorem decode_eq_reservedOpcode_iff (w : CmdWord) :
    decode w = .illegal .reservedOpcode ↔ opcodeInUse (fieldOp w) = false := by
  rw [decode_eq_illegal_iff]
  cases hop : opcodeInUse (fieldOp w) with
  | false => simpa using no_row_of_not_inUse hop
  | true => simp

theorem decode_eq_nonzeroUnusedBit_iff (w : CmdWord) :
    decode w = .illegal .nonzeroUnusedBit ↔
      opcodeInUse (fieldOp w) = true ∧ ∀ o, w &&& maskBits o ≠ matchBits o := by
  rw [decode_eq_illegal_iff]
  cases opcodeInUse (fieldOp w) <;> simp

/-- An illegal word completes with `ILLEGAL_COMMAND` and no write (60_exceptions R157). -/
theorem takeWord_of_illegal (s : State) {w : CmdWord} {why : Illegal} (h : decode w = .illegal why) :
    s.takeWord w = .next (s.completed (statusWord .illegalCommand 0 0#8)) := by
  rw [State.takeWord, h]
  exact congrArg Host.Outcome.next (State.finish_eq_completed s .illegalCommand 0 0#8)

theorem statusWord_illegalCommand : statusWord .illegalCommand 0 0#8 = 0x1#32 := by decide

/-- Settles O6: `OP` in use or not tells the two heads apart, and the completion does not read which it is. -/
theorem illegalWords : Obligations.IllegalWords := by
  unfold Obligations.IllegalWords
  refine ⟨fun w => ?reserved, fun w => ?unused, fun s w why h => ?taken⟩
  case reserved => rw [decode_eq_reservedOpcode_iff, opcodeInUse_eq_false_iff]
  case unused => rw [decode_eq_nonzeroUnusedBit_iff, opcodeInUse_eq_true_iff]
  case taken => rw [takeWord_of_illegal s h, statusWord_illegalCommand]

end Sys2Proof.Machine
end

section
/-! The eight bytes of a parameter block and their addresses (30_encoding R67). -/

namespace Sys2Proof.Machine

/-- The number of two fields side by side. -/
theorem toNat_append_eq_add {m n : Nat} (x : BitVec m) (y : BitVec n) :
    (x ++ y).toNat = x.toNat * 2 ^ n + y.toNat := by
  rw [BitVec.toNat_append, ← Nat.shiftLeft_add_eq_or_of_lt y.isLt, Nat.shiftLeft_eq]

theorem toNat_p1High (f : Packed) : (p1High f).toNat = f.p1.toNat / 2 ^ 16 :=
  toNat_extractLsb'_top 16 2 f.p1

/-- R67: the place of every bit of P1, P2 and P3 in the eight bytes. -/
theorem map_toNat_blockBytes (f : Packed) :
    (blockBytes f).map BitVec.toNat =
      [ f.p3.toNat / 2 ^ 8 % 256, f.p3.toNat % 256, f.p1.toNat / 2 ^ 16, f.p1.toNat / 2 ^ 8 % 256,
        f.p1.toNat % 256, f.p3.toNat / 2 ^ 16 * 16 + f.p2.toNat / 2 ^ 16, f.p2.toNat / 2 ^ 8 % 256,
        f.p2.toNat % 256 ] := by
  have hp1 : (0#6 ++ p1High f : BitVec (6 + 2)).toNat = f.p1.toNat / 2 ^ 16 := by
    rw [toNat_append_eq_add, toNat_p1High, BitVec.toNat_ofNat]
    omega
  have htop : ∀ x : BitVec 20, (x.extractLsb' 16 4).toNat = x.toNat / 2 ^ 16 :=
    toNat_extractLsb'_top 16 4
  have hp32 : (f.p3.extractLsb' 16 4 ++ f.p2.extractLsb' 16 4 : BitVec (4 + 4)).toNat =
      f.p3.toNat / 2 ^ 16 * 16 + f.p2.toNat / 2 ^ 16 := by
    simp only [toNat_append_eq_add, htop, Nat.reducePow]
  simp only [blockBytes, List.map_cons, List.map_nil, hp1, hp32, toNat_extractLsb', pow_zero, Nat.div_one,
    Nat.reducePow]

/-- Byte `i` of a list goes to `base + i` (40_field_packer R96). -/
theorem writesFrom_eq_zipWith (base : Nat) (bs : List Byte) :
    writesFrom base bs =
      List.zipWith (fun k x => Write.mk (BitVec.ofNat 8 (base + k)) x) (List.range bs.length) bs := by
  induction bs generalizing base with
  | nil => rfl
  | cons b bs ih =>
    rw [writesFrom, ih, List.length_cons, List.range_succ_eq_map, List.zipWith_cons_cons,
      List.zipWith_map_left]
    simp only [Nat.add_zero, Nat.succ_eq_add_one, Nat.add_assoc, Nat.add_comm 1]

/-- The bytes of a block determine its fields: each field's pieces are all there. -/
theorem blockBytes_injective : Function.Injective blockBytes := by
  intro f g h
  have hn := congrArg (List.map BitVec.toNat) h
  simp only [map_toNat_blockBytes, List.cons.injEq, and_true] at hn
  obtain ⟨h0, h1, h2, h3, h4, h5, h6, h7⟩ := hn
  have hf := f.p2.isLt
  have hg := g.p2.isLt
  have hp1 : f.p1 = g.p1 := BitVec.eq_of_toNat_eq (by omega)
  have hp2 : f.p2 = g.p2 := BitVec.eq_of_toNat_eq (by omega)
  have hp3 : f.p3 = g.p3 := BitVec.eq_of_toNat_eq (by omega)
  show Packed.mk f.p1 f.p2 f.p3 = Packed.mk g.p1 g.p2 g.p3
  rw [hp1, hp2, hp3]

/-- Settles O10: the layout, the addresses, and the fields back from the bytes. -/
theorem blockBytesLayout : Obligations.BlockBytesLayout := by
  unfold Obligations.BlockBytesLayout
  exact ⟨map_toNat_blockBytes, fun base f => writesFrom_eq_zipWith base (blockBytes f),
    fun f g h => blockBytes_injective h⟩

end Sys2Proof.Machine
end

section
/-! The fields of a parameter block as numbers (40_field_packer R92 to R95). -/

namespace Sys2Proof.Machine

/-- R94: the bits of P1 hold the residue of its signed intermediate, so it is not negative for `a <= 3` either. -/
theorem toNat_p1_pack (a b c : Nat) :
    ((pack a b c).p1.toNat : Int) = (128 * (a : Int) + (quotient b c : Int) - 512) % 2 ^ 18 := by
  have hnonneg : 0 ≤ (128 * (a : Int) + (quotient b c : Int) - 512) % ((2 ^ 18 : Nat) : Int) :=
    Int.emod_nonneg _ (by decide)
  rw [pack, BitVec.toNat_ofInt, Int.toNat_of_nonneg hnonneg, Nat.cast_pow, Nat.cast_ofNat]

/-- R95: what the common quotient leaves of `128*b` is the remainder by `c`. -/
theorem sub_mul_quotient (b c : Nat) : 128 * b - c * quotient b c = 128 * b % c :=
  (Nat.mod_eq_sub (128 * b) c).symm

theorem toNat_p2_pack (a b c : Nat) : (pack a b c).p2.toNat = 128 * b % c % 2 ^ 20 := by
  rw [pack, BitVec.toNat_ofNat, sub_mul_quotient]

theorem toNat_p3_pack (a b c : Nat) : (pack a b c).p3.toNat = c % 2 ^ 20 :=
  BitVec.toNat_ofNat c 20

/-- R95: the mask removes no bit of P2 when the denominator is one that a command can supply. -/
theorem toNat_p2_pack_of_le (a b : Nat) {c : Nat} (hpos : 1 ≤ c) (hle : c ≤ 1048575) :
    (pack a b c).p2.toNat = 128 * b % c := by
  have hlt : 128 * b % c < c := Nat.mod_lt _ hpos
  rw [toNat_p2_pack, Nat.mod_eq_of_lt (by omega)]

/-- Settles O7: each field by its formula, and P2 within its mask for a denominator of at most 20 bits. -/
theorem packGivesTheFields : Obligations.PackGivesTheFields := by
  unfold Obligations.PackGivesTheFields
  intro a b c hpos
  refine ⟨toNat_p1_pack a b c, toNat_p2_pack a b c, fun hle => ?_, toNat_p3_pack a b c⟩
  have hp2 := toNat_p2_pack_of_le a b hpos hle
  exact ⟨hp2, hp2.trans_lt (Nat.mod_lt _ hpos)⟩

end Sys2Proof.Machine
end

section
/-! SETUP_PLL (41_pll): its write list, the width of its VCO record, and the two ways its run ends. -/

namespace Sys2Proof.Machine

@[simp] theorem State.waiting_vco (s : State) (pre post : List Write) (u : Update) (q : Pll) :
    (s.waiting pre post u).vco q = s.vco q := by cases q <;> rfl

/-- "`U` applies only when all nine writes are answered `OK`" (41_pll R107), for the VCO records of any command. -/
theorem exec_vco_of_not_all_ok {i : Instr} {s t : State} {pl : Plan} (h : exec i s = .next t)
    (hp : planOf i s = .writes pl) (hb : ¬ List.replicate pl.writes.length Answer.ok <+: s.bus)
    (q : Pll) : t.vco q = s.vco q := by
  rcases exec_cases h with ⟨c, hc, -⟩ | ⟨pl', hp', hend⟩
  · rw [hp] at hc
    cases hc
  · obtain rfl : pl = pl' := by simpa [hp] using hp'
    rcases hend with ⟨rest, hbus, -⟩ | ⟨pre, w, post, rest, -, -, rfl⟩ | ⟨pre, w, post, -, -, rfl⟩
    · exact absurd ⟨rest, hbus.symm⟩ hb
    · rw [State.completed_vco, State.memWrite_vco, State.wrote_vco]
    · exact State.waiting_vco ..

theorem blockWrites_eq_zipWith (base : Nat) (f : Packed) :
    blockWrites base f =
      List.zipWith (fun k x => Write.mk (BitVec.ofNat 8 (base + k)) x) (List.range 8) (blockBytes f) :=
  writesFrom_eq_zipWith base (blockBytes f)

/-- `W` of SETUP_PLL: the parameter block, then the reset write (41_pll R107, R108). -/
def pllWrites (cfg : Config) (p : Pll) (mult num denom : Nat) : List Write :=
  blockWrites (pllBase p) (pack mult num denom) ++ [pllResetWrite cfg]

@[simp] theorem length_pllWrites (cfg : Config) (p : Pll) (mult num denom : Nat) :
    (pllWrites cfg p mult num denom).length = 9 := by simp [pllWrites]

theorem statusWord_ok_nine : statusWord .ok 9 0#8 = 0x90#32 := by decide

/-- The fraction adds at most `XTAL * num`, so the record of the widest operands has 65 bits (10_state R24, D9). -/
theorem vcoRecord_lt {xtal mult num denom : Nat} (hx : xtal < 2 ^ 32) (hm : mult < 2 ^ 32)
    (hn : num < 2 ^ 20) (hd : 0 < denom) : vcoRecord xtal mult num denom < 2 ^ 65 := by
  have hnum : num ≤ num * denom := Nat.le_mul_of_pos_right num hd
  calc vcoRecord xtal mult num denom
      ≤ xtal * (mult * denom + num * denom) / denom :=
        Nat.div_le_div_right (Nat.mul_le_mul_left xtal (Nat.add_le_add_left hnum _))
    _ = xtal * (mult + num) := by
        rw [← Nat.add_mul, ← Nat.mul_assoc, Nat.mul_div_cancel _ hd]
    _ < 2 ^ 32 * 2 ^ 33 := Nat.mul_lt_mul'' hx (by omega)
    _ = 2 ^ 65 := by norm_num

section
variable (p : Pll) (mult : BitVec 32) (num : BitVec 20) {denom : BitVec 20} (hd : denom ≠ 0#20)
  (s : State)
include hd

/-- The 65-bit register holds the record of every encodable operand (41_pll R109). -/
theorem toNat_ofNat_vcoRecord (xtal : BitVec 32) :
    (BitVec.ofNat 65 (vcoRecord xtal.toNat mult.toNat num.toNat denom.toNat)).toNat =
      vcoRecord xtal.toNat mult.toNat num.toNat denom.toNat := by
  have hpos : 0 < denom.toNat := BitVec.toNat_pos_of_ne_zero hd
  rw [BitVec.toNat_ofNat, Nat.mod_eq_of_lt (vcoRecord_lt xtal.isLt mult.isLt num.isLt hpos)]

theorem planOf_setupPll :
    planOf (.setupPll p mult num denom) s = .writes
      { writes := pllWrites s.cfg p mult.toNat num.toNat denom.toNat
        update := .recordVco p
          (BitVec.ofNat 65 (vcoRecord s.xtal.toNat mult.toNat num.toNat denom.toNat)) } :=
  planSetupPll_of_legal p mult num hd s

/-- All nine writes answered `OK` (41_pll R107). -/
theorem exec_setupPll_all_ok {answers : List Answer}
    (hb : s.bus = List.replicate 9 .ok ++ answers) :
    exec (.setupPll p mult num denom) s =
      .next (((s.wrote (pllWrites s.cfg p mult.toNat num.toNat denom.toNat) answers).setVco p
        (BitVec.ofNat 65 (vcoRecord s.xtal.toNat mult.toNat num.toNat denom.toNat))).completed
          0x90#32) := by
  rw [exec_all_ok (planOf_setupPll p mult num hd s) (length_pllWrites ..) hb, State.apply_recordVco,
    statusWord_ok_nine]

/-- Nine `OK`s are not there: the command fails or waits, and no VCO is recorded (41_pll R107, R111). -/
theorem exec_setupPll_not_all_ok (hb : ¬ List.replicate 9 Answer.ok <+: s.bus) :
    ∃ t, exec (.setupPll p mult num denom) s = .next t ∧ ∀ q, t.vco q = s.vco q := by
  have hplan := planOf_setupPll p mult num hd s
  rw [← length_pllWrites s.cfg p mult.toNat num.toNat denom.toNat] at hb
  exact ⟨_, exec_eq_run _ s, exec_vco_of_not_all_ok (exec_eq_run _ s) hplan hb⟩

end

/-- Settles O20: `W` is the planned list, and the answers decide whether its update is reached. -/
theorem setupPllResult : Obligations.SetupPllResult := by
  unfold Obligations.SetupPllResult
  intro p mult num denom s answers hd f base W v
  have hbase : pllBase p = base := by cases p <;> rfl
  have hW : pllWrites s.cfg p mult.toNat num.toNat denom.toNat = W := by
    rw [pllWrites, hbase, blockWrites_eq_zipWith]
    rfl
  rw [← hW]
  exact ⟨length_pllWrites .., exec_setupPll_all_ok p mult num hd s,
    exec_setupPll_not_all_ok p mult num hd s⟩

/-- Settles O21: the record fits the register, and it is set for `p` alone. -/
theorem vcoRecordIsExact : Obligations.VcoRecordIsExact := by
  unfold Obligations.VcoRecordIsExact
  intro p mult num denom s answers hd hb
  refine ⟨_, exec_setupPll_all_ok p mult num hd s hb, ?record, fun q hq => ?other⟩
  case record =>
    rw [State.completed_vco, State.setVco_vco, if_pos rfl, toNat_ofNat_vcoRecord mult num hd s.xtal,
      vcoRecord]
  case other => rw [State.completed_vco, State.setVco_vco, if_neg hq, State.wrote_vco]

end Sys2Proof.Machine
end

section
/-! The clock-control byte (42_multisynth R118, 30_encoding R69), bit by bit. -/

namespace Sys2Proof.Machine

/-- A condition moved to bit `n` of a byte sets that bit when it holds, and no other. -/
theorem getLsbD_ite_shiftLeft (P : Prop) [Decidable P] {n : Nat} (hn : n < 8) (k : Nat) :
    ((if P then 1#8 else 0#8) <<< n).getLsbD k = decide (k = n ∧ P) := by
  rw [BitVec.getLsbD_shiftLeft]
  by_cases hP : P
  · rw [if_pos hP, BitVec.getLsbD_one, Bool.eq_iff_iff]
    simp only [Bool.and_eq_true, Bool.not_eq_true', decide_eq_true_eq, decide_eq_false_iff_not, hP,
      and_true]
    omega
  · simp [hP]

/-- Each bit of the byte is that of the base, or is set by the source at 5 or by the numerator at 6. -/
theorem getLsbD_clkCtrl (cfg : Config) (p : Pll) (num k : Nat) :
    (clkCtrl cfg p num).getLsbD k =
      (cfg.clkCtrlBase.getLsbD k || decide (k = 5 ∧ p = .b) || decide (k = 6 ∧ num = 0)) := by
  rw [clkCtrl, BitVec.getLsbD_or, BitVec.getLsbD_or, getLsbD_ite_shiftLeft (p = .b) (by decide),
    getLsbD_ite_shiftLeft (num = 0) (by decide)]

/-- "`cfg.CLK_CTRL_BASE` must have bits 6 and 5 clear" (30_encoding R69). -/
theorem clkCtrlBase_bits_of_legal {cfg : Config} (h : cfg.legal = true) :
    cfg.clkCtrlBase.getLsbD 5 = false ∧ cfg.clkCtrlBase.getLsbD 6 = false := by
  have hmask : cfg.clkCtrlBase &&& 0x60#8 = 0#8 := beq_iff_eq.1 h
  have hbit : ∀ k, (cfg.clkCtrlBase.getLsbD k && (0x60#8).getLsbD k) = false := fun k => by
    rw [← BitVec.getLsbD_and, hmask, BitVec.getLsbD_zero]
  exact ⟨by simpa using hbit 5, by simpa using hbit 6⟩

/-- Settles O11: the base leaves bits 5 and 6 to the source and the numerator, which set no other bit. -/
theorem clockControlByte : Obligations.ClockControlByte := by
  unfold Obligations.ClockControlByte
  refine ⟨fun cfg p num hlegal => ?bits, fun cfg num hbase hnum => ?values⟩
  case bits =>
    obtain ⟨h5, h6⟩ := clkCtrlBase_bits_of_legal hlegal
    refine ⟨?integerMode, ?source, fun k hk5 hk6 => ?rest⟩
    case integerMode => rw [getLsbD_clkCtrl, h6]; simp
    case source => rw [getLsbD_clkCtrl, h5]; simp
    case rest => rw [getLsbD_clkCtrl]; simp [hk5, hk6]
  case values => simp [clkCtrl, hbase, hnum]

end Sys2Proof.Machine
end

section
/-! SETUP_MS (42_multisynth): its write list by the channel operand, what P1HI keeps, and its run when all nine
writes are answered `OK`. -/

namespace Sys2Proof.Machine

/-- `P1[17:16]` by division (10_state R26). -/
theorem p1High_eq_ofNat (f : Packed) : p1High f = BitVec.ofNat 2 (f.p1.toNat / 2 ^ 16) := by
  rw [← toNat_p1High, BitVec.ofNat_toNat, BitVec.setWidth_eq]

/-- `MS_BASE(ch) = 42 + 8*ch` for the operand that names the channel (30_encoding R68). -/
theorem msBase_of_channelOf {ch : BitVec 2} {c : Channel} (hc : channelOf ch = some c) :
    msBase c = 42 + 8 * ch.toNat := by
  rw [msBase, channelIndex_of_channelOf hc]

@[simp] theorem msPlan_update (cfg : Config) (c : Channel) (p : Pll) (div num denom : Nat) :
    (msPlan cfg c p div num denom).update = .recordP1hi c (p1High (pack div num denom)) := rfl

/-- `W` of the Multisynth Configurator: byte `k` of the block at `MS_BASE(ch) + k`, then the clock-control byte
(42_multisynth R117). -/
theorem msPlan_writes_eq_zipWith {ch : BitVec 2} {c : Channel} (hc : channelOf ch = some c)
    (cfg : Config) (p : Pll) (div num denom : Nat) :
    (msPlan cfg c p div num denom).writes =
      List.zipWith (fun k x => Write.mk (BitVec.ofNat 8 (42 + 8 * ch.toNat + k)) x) (List.range 8)
        (blockBytes (pack div num denom)) ++ [⟨clkCtrlAddr cfg c, clkCtrl cfg p num⟩] := by
  rw [msPlan, blockWrites_eq_zipWith, msBase_of_channelOf hc]

/-- All nine writes answered `OK` (42_multisynth R117). -/
theorem exec_setupMs_all_ok {ch : BitVec 2} {c : Channel} (hc : channelOf ch = some c) (p : Pll)
    (div : BitVec 32) (num : BitVec 20) {denom : BitVec 20} (hd : denom ≠ 0#20) (s : State)
    {answers : List Answer} (hb : s.bus = List.replicate 9 .ok ++ answers) :
    exec (.setupMs ch p div num denom) s =
      .next (((s.wrote (msPlan s.cfg c p div.toNat num.toNat denom.toNat).writes answers).setP1hi c
        (p1High (pack div.toNat num.toNat denom.toNat))).completed 0x90#32) := by
  have hplan : planOf (.setupMs ch p div num denom) s =
      .writes (msPlan s.cfg c p div.toNat num.toNat denom.toNat) :=
    planSetupMs_of_legal hc p div num hd s
  rw [exec_all_ok hplan (length_msPlan ..) hb, msPlan_update, State.apply_recordP1hi, statusWord_ok_nine]

/-- Settles O22: `W` is the planned list, and the run of nine `OK`s reaches its update. -/
theorem setupMsResult : Obligations.SetupMsResult := by
  unfold Obligations.SetupMsResult
  intro ch c p div num denom s answers hc hd f W
  have hW : (msPlan s.cfg c p div.toNat num.toNat denom.toNat).writes = W :=
    msPlan_writes_eq_zipWith hc s.cfg p div.toNat num.toNat denom.toNat
  rw [← hW, ← p1High_eq_ofNat]
  exact ⟨length_msPlan .., exec_setupMs_all_ok hc p div num hd s⟩

end Sys2Proof.Machine
end

section
/-! SETUP_RDIV (43_rdiv): its one write by the channel operand, and its run when that write is answered `OK`. -/

namespace Sys2Proof.Machine

theorem statusWord_ok_one : statusWord .ok 1 0#8 = 0x10#32 := by decide

/-- `MS_BASE(ch) + 2` for the operand that names the channel (30_encoding R70). -/
theorem rdivAddr_of_channelOf {ch : BitVec 2} {c : Channel} (hc : channelOf ch = some c) :
    rdivAddr c = BitVec.ofNat 8 (42 + 8 * ch.toNat + 2) := by
  rw [rdivAddr, msBase_of_channelOf hc]

/-- The write answered `OK`: no register but `STATUS` changes (43_rdiv R127). -/
theorem exec_setupRdiv_ok {ch : BitVec 2} {c : Channel} (hc : channelOf ch = some c) (n : BitVec 3)
    {s : State} {answers : List Answer} (hb : s.bus = .ok :: answers) :
    exec (.setupRdiv ch n) s =
      .next ((s.wrote [rdivWrite s.cfg c n (s.p1hi c)] answers).completed 0x10#32) := by
  have hplan : planOf (.setupRdiv ch n) s =
      .writes { writes := [rdivWrite s.cfg c n (s.p1hi c)], update := .nothing } :=
    planSetupRdiv_of_legal hc n s
  rw [exec_all_ok hplan List.length_singleton hb, State.apply_nothing, statusWord_ok_one]

/-- Settles O23: the planned write is at the channel's address, and its low bits are those of the reading. -/
theorem setupRdivResult : Obligations.SetupRdivResult := by
  unfold Obligations.SetupRdivResult
  intro ch c n s answers hc hb low
  have hlow : rdivLow s.cfg (s.p1hi c) = low := rfl
  rw [exec_setupRdiv_ok hc n hb, rdivWrite, hlow, rdivAddr_of_channelOf hc]

end Sys2Proof.Machine
end

section
/-! The stage of the R-divider by the band of the frequency (44_resolver R134, R135). -/

namespace Sys2Proof.Machine

theorem inBand_eq_true_iff (f k : Nat) :
    inBand f k = true ↔ 4000 * 2 ^ k ≤ f ∧ f < 4000 * 2 ^ (k + 1) := decide_eq_true_iff

/-- "The bands are disjoint, so at most one matches" (44_resolver R134): a lower band ends where the next begins. -/
theorem inBand_eq_false_of_lt {f j k : Nat} (hjk : j < k) (hk : inBand f k = true) :
    inBand f j = false := by
  obtain ⟨hlow, -⟩ := (inBand_eq_true_iff f k).1 hk
  have hends : 2 ^ (j + 1) ≤ 2 ^ k := Nat.pow_le_pow_right (by decide) hjk
  rw [← Bool.not_eq_true, inBand_eq_true_iff]
  omega

/-- All seven bands lie in `[4000, 512000)`. -/
theorem inBand_eq_false_of_outside {f k : Nat} (hk : k < 7) (hf : f < 4000 ∨ 512000 ≤ f) :
    inBand f k = false := by
  have hbegins : 1 ≤ 2 ^ k := Nat.one_le_two_pow
  have hends : 2 ^ (k + 1) ≤ 2 ^ 7 := Nat.pow_le_pow_right (by decide) hk
  rw [← Bool.not_eq_true, inBand_eq_true_iff]
  omega

theorem stage_of_inBand {f k : Nat} (hk : k < 7) (hf : inBand f k = true) : stage f = 7 - k := by
  have hfind : (List.range 7).find? (inBand f) = some k :=
    List.find?_range_eq_some.2 ⟨hf, List.mem_range.2 hk, fun j hj => by
      rw [inBand_eq_false_of_lt hj hf]; rfl⟩
  rw [stage, hfind]

theorem stage_of_outside {f : Nat} (hf : f < 4000 ∨ 512000 ≤ f) : stage f = 0 := by
  have hfind : (List.range 7).find? (inBand f) = none :=
    List.find?_eq_none.2 fun k hk => by
      rw [inBand_eq_false_of_outside (List.mem_range.1 hk) hf]; decide
  rw [stage, hfind]

/-- Settles O13: the search stops at the one band that holds the frequency, and finds none outside all seven. -/
theorem stageFollowsTheBands : Obligations.StageFollowsTheBands := by
  unfold Obligations.StageFollowsTheBands
  refine ⟨fun f k hk hlow hhigh => ?band, fun f hf => stage_of_outside hf⟩
  case band =>
    exact stage_of_inBand (Nat.lt_succ_of_le hk) ((inBand_eq_true_iff f k).2 ⟨hlow, hhigh⟩)

end Sys2Proof.Machine
end

section
/-! The fraction reducer (44_resolver R139): the fuel of the loop is never what ends it. -/

namespace Sys2Proof.Machine

/-- "While `denom > 1,048,575`" (44_resolver R139): the loop ends at once, with any fuel. -/
theorem reduceLoop_of_le {den : Nat} (h : den ≤ fracLimit) (fuel num : Nat) :
    reduceLoop fuel num den = (num, den) := by
  cases fuel with
  | zero => rfl
  | succ fuel => rw [reduceLoop, if_neg (Nat.not_lt.2 h)]

theorem reduceLoop_succ_of_gt {den : Nat} (h : fracLimit < den) (fuel num : Nat) :
    reduceLoop (fuel + 1) num den = reduceLoop fuel (num / 2) (den / 2) := by
  rw [reduceLoop, if_pos h]

theorem reduce_of_le {den : Nat} (h : den ≤ fracLimit) (num : Nat) : reduce num den = (num, den) :=
  reduceLoop_of_le h (Nat.log2 den) num

/-- One round of the loop: halving the denominator takes one from its logarithm, as a round takes one from the
fuel. -/
theorem reduce_of_gt {den : Nat} (h : fracLimit < den) (num : Nat) :
    reduce num den = reduce (num / 2) (den / 2) := by
  have hlog : Nat.log2 den = Nat.log2 (den / 2) + 1 := by
    rw [Nat.log2_def, if_pos (Nat.le_trans (by decide) h)]
  rw [reduce, hlog, reduceLoop_succ_of_gt h, reduce]

/-- Settles O14: by whether the loop's condition holds. -/
theorem reduceIsTheHalvingLoop : Obligations.ReduceIsTheHalvingLoop := by
  unfold Obligations.ReduceIsTheHalvingLoop
  intro num den
  split
  case isTrue h => exact reduce_of_gt h num
  case isFalse h => exact reduce_of_le (Nat.not_lt.1 h) num

/-- No halving takes the numerator 0 away from 0 (44_resolver R143). -/
theorem reduceLoop_zero_fst (fuel den : Nat) : (reduceLoop fuel 0 den).1 = 0 := by
  induction fuel generalizing den with
  | zero => rfl
  | succ fuel ih =>
    rcases Nat.lt_or_ge fracLimit den with h | h
    · rw [reduceLoop_succ_of_gt h, Nat.zero_div, ih]
    · rw [reduceLoop_of_le h]

theorem reduce_zero_fst (den : Nat) : (reduce 0 den).1 = 0 := reduceLoop_zero_fst (Nat.log2 den) den

end Sys2Proof.Machine
end

section
/-! SET_FREQ (44_resolver R141, R143): its ten writes, its run when all of them are answered `OK`, and what it does
on a PLL that was never configured. -/

namespace Sys2Proof.Machine

theorem statusWord_ok_ten : statusWord .ok 10 0#8 = 0xA0#32 := by decide

/-- "Invoke the Multisynth Configurator (4.3) ..., then the R-Divider Configurator (4.4)" (44_resolver R141). -/
theorem resolvedPlan_writes (cfg : Config) (c : Channel) (p : Pll) (r : Resolved) :
    (resolvedPlan cfg c p r).writes =
      (msPlan cfg c p r.div r.num r.den).writes ++
        [rdivWrite cfg c (BitVec.ofNat 3 r.exponent) (p1High (pack r.div r.num r.den))] := rfl

@[simp] theorem resolvedPlan_update (cfg : Config) (c : Channel) (p : Pll) (r : Resolved) :
    (resolvedPlan cfg c p r).update = .recordP1hi c (p1High (pack r.div r.num r.den)) := rfl

/-- The clock-control byte is among the writes, with integer mode by the reduced numerator (44_resolver R142). -/
theorem clkCtrl_mem_resolvedPlan (cfg : Config) (c : Channel) (p : Pll) (r : Resolved) :
    ⟨clkCtrlAddr cfg c, clkCtrl cfg p r.num⟩ ∈ (resolvedPlan cfg c p r).writes := by
  simp [resolvedPlan_writes, msPlan]

/-- Every write answered `OK` has its entry in the log (20_memory R51). -/
theorem okEntry_mem_okEntries (d : BitVec 7) {w : Write} {ws : List Write} (h : w ∈ ws) :
    ⟨d, w.addr, w.data, .ok⟩ ∈ okEntries d ws :=
  List.mem_map_of_mem h

/-- All ten writes answered `OK` (44_resolver R141). -/
theorem exec_setFreq_all_ok {ch : BitVec 2} {c : Channel} (hc : channelOf ch = some c) (p : Pll)
    {f : BitVec 32} (hf : f ≠ 0#32) {s : State} {answers : List Answer}
    (hb : s.bus = List.replicate 10 .ok ++ answers) {r : Resolved}
    (hr : resolve (s.vco p).toNat f.toNat = r) :
    exec (.setFreq ch p f) s =
      .next (((s.wrote (resolvedPlan s.cfg c p r).writes answers).setP1hi c
        (p1High (pack r.div r.num r.den))).completed 0xA0#32) := by
  subst hr
  have hplan : planOf (.setFreq ch p f) s =
      .writes (resolvedPlan s.cfg c p (resolve (s.vco p).toNat f.toNat)) :=
    planSetFreq_of_legal hc p hf s
  rw [exec_all_ok hplan (length_resolvedPlan ..) hb, resolvedPlan_update, State.apply_recordP1hi,
    statusWord_ok_ten]

/-- Settles O24: `W` is the planned list, whose first nine writes and last write are those of the two
configurators, and the run of ten `OK`s reaches its update. -/
theorem setFreqResult : Obligations.SetFreqResult := by
  unfold Obligations.SetFreqResult
  intro ch c p f s answers hc hf e fs fvco r k high low base W
  have hhigh : p1High k = high := p1High_eq_ofNat k
  have hlow : rdivLow s.cfg high = low := rfl
  have hlast : rdivWrite s.cfg c (BitVec.ofNat 3 e) high =
      ⟨BitVec.ofNat 8 (base + 2), rdivByte (BitVec.ofNat 3 e) low⟩ := by
    rw [rdivWrite, hlow, rdivAddr_of_channelOf hc]
  have hW : W = (msPlan s.cfg c p (fvco / fs) r.1 r.2).writes ++
      [rdivWrite s.cfg c (BitVec.ofNat 3 e) high] := by
    rw [hlast, msPlan_writes_eq_zipWith hc]
  have hnine : (msPlan s.cfg c p (fvco / fs) r.1 r.2).writes.length = 9 := length_msPlan ..
  refine ⟨?length, ?multisynth, ?rdivider, fun hb => ?run⟩
  case length => rw [hW, List.length_append, hnine, List.length_singleton]
  case multisynth => rw [hW, List.take_left' hnine]
  case rdivider => rw [hW, List.drop_left' hnine]
  case run =>
    have hresolve : resolve fvco f.toNat = ⟨e, fvco / fs, r.1, r.2⟩ := rfl
    rw [exec_setFreq_all_ok hc p hf hb hresolve, resolvedPlan_writes, hhigh, ← hW]

/-! ### A PLL that was never configured (44_resolver R143) -/

/-- The recorded frequency 0 leaves nothing to divide. -/
theorem resolve_zero (f : Nat) :
    resolve 0 f =
      { exponent := stage f, div := 0, num := 0, den := (reduce 0 (f * 2 ^ stage f)).2 } := by
  simp only [resolve, Nat.zero_div, Nat.zero_mod, reduce_zero_fst]

/-- P1's intermediate is `-512` there, whatever the denominator. -/
theorem p1_pack_zero (den : Nat) : (pack 0 0 den).p1 = 0x3FE00#18 := by
  have hquotient : quotient 0 den = 0 := Nat.zero_div den
  have hp1 : ((pack 0 0 den).p1.toNat : Int) = 0x3FE00 := by
    rw [toNat_p1_pack, hquotient]
    decide
  exact BitVec.eq_of_toNat_eq (Int.ofNat_inj.1 hp1)

theorem p1High_pack_zero (den : Nat) : p1High (pack 0 0 den) = 3#2 := by
  rw [p1High, p1_pack_zero]
  decide

/-- Integer mode is set for the numerator 0 (42_multisynth R118). -/
theorem getLsbD_clkCtrl_zero (cfg : Config) (p : Pll) : (clkCtrl cfg p 0).getLsbD 6 = true := by
  simp [getLsbD_clkCtrl]

/-- Settles O26: the resolved operands are 0, and the run of ten `OK`s is that of any other SET_FREQ. -/
theorem setFreqOnUnconfiguredPll : Obligations.SetFreqOnUnconfiguredPll := by
  unfold Obligations.SetFreqOnUnconfiguredPll
  intro ch c p f s answers hc hf hvco hb fs
  have hresolve : resolve (s.vco p).toNat f.toNat = ⟨stage f.toNat, 0, 0, (reduce 0 fs).2⟩ := by
    rw [hvco, BitVec.toNat_zero, resolve_zero]
  refine ⟨hresolve, p1_pack_zero _, _, exec_setFreq_all_ok hc p hf hb hresolve, ?status, ?p1hi, ?log⟩
  case status => exact State.completed_status ..
  case p1hi => rw [State.completed_p1hi, State.setP1hi_p1hi, if_pos rfl, p1High_pack_zero]
  case log =>
    have hlog := okEntry_mem_okEntries s.busaddr
      (clkCtrl_mem_resolvedPlan s.cfg c p ⟨stage f.toNat, 0, 0, (reduce 0 fs).2⟩)
    refine ⟨_, ?_, _, hlog, rfl, rfl, getLsbD_clkCtrl_zero s.cfg p⟩
    rw [State.completed_log, State.setP1hi_log, State.wrote_log]

end Sys2Proof.Machine
end

section
/-! ENABLE_OUTPUTS (45_output_enable): its one write, and its run when that write is answered `OK`. -/

namespace Sys2Proof.Machine

/-- Validate never stops the command, and it records nothing (45_output_enable R152). -/
theorem planOf_enableOutputs (en : Bool) (s : State) :
    planOf (.enableOutputs en) s =
      .writes { writes := [⟨s.cfg.oeAddr, enableByte en⟩], update := .nothing } := rfl

/-- Settles O25: the planned write is answered `OK`, and no register but `STATUS` changes. -/
theorem enableOutputsResult : Obligations.EnableOutputsResult := by
  unfold Obligations.EnableOutputsResult
  intro en s answers hb
  rw [exec_all_ok (planOf_enableOutputs en s) List.length_singleton hb, State.apply_nothing,
    statusWord_ok_one, enableByte]

end Sys2Proof.Machine
end

section
/-! The fields of the completion word (60_exceptions R162), for every code, count and address. -/

namespace Sys2Proof.Machine

section
variable (c : Code) (n : Nat) (a : Addr)

@[simp] theorem statusCode_statusWord : statusCode (statusWord c n a) = codeBits c :=
  BitVec.extractLsb'_append_eq_right

@[simp] theorem statusNwr_statusWord : statusNwr (statusWord c n a) = BitVec.ofNat 4 n := by
  rw [statusNwr, statusWord, BitVec.extractLsb'_append_eq_of_le (by decide),
    BitVec.extractLsb'_append_eq_right]

@[simp] theorem statusFaddr_statusWord : statusFaddr (statusWord c n a) = a := by
  rw [statusFaddr, statusWord, BitVec.extractLsb'_append_eq_of_le (by decide),
    BitVec.extractLsb'_append_eq_of_le (by decide), BitVec.extractLsb'_append_eq_right]

end

theorem statusWord_illegalOperand : statusWord .illegalOperand 0 0#8 = 0x2#32 := by decide

theorem statusWord_zeroFrequency : statusWord .zeroFrequency 0 0#8 = 0x3#32 := by decide

end Sys2Proof.Machine
end

section
/-! The faults of Validate (60_exceptions R158, R159, R163): which operands raise which code, and that nothing but the
completion follows. -/

namespace Sys2Proof

/-- The operands that raise `ILLEGAL_OPERAND` (60_exceptions R158 (a), (b)). -/
def Instr.HasIllegalOperand : Instr → Prop
  | .setupPll _ _ _ denom => denom = 0#20
  | .setupMs ch _ _ _ denom => ch = 3#2 ∨ denom = 0#20
  | .setupRdiv ch _ => ch = 3#2
  | .setFreq ch _ _ => ch = 3#2
  | .enableOutputs _ => False

end Sys2Proof

namespace Sys2Proof.Machine

theorem withDenom_writes_eq_fault_iff (denom : BitVec 20) (pl : Plan) (c : Code) :
    withDenom denom (.writes pl) = .fault c ↔ denom = 0#20 ∧ c = .illegalOperand := by
  by_cases h : denom = 0#20
  · simp [h, eq_comm]
  · simp [withDenom_of_ne h, h]

theorem withFreq_writes_eq_fault_iff (f : BitVec 32) (pl : Plan) (c : Code) :
    withFreq f (.writes pl) = .fault c ↔ f = 0#32 ∧ c = .zeroFrequency := by
  by_cases h : f = 0#32
  · simp [h, eq_comm]
  · simp [withFreq_of_ne h, h]

/-- The channel is looked at first; the rest of the plan faults on the same condition `P` for every channel. -/
theorem withChannel_eq_fault_iff {ch : BitVec 2} {k : Channel → Planned} {c : Code} {P : Prop}
    (hk : ∀ d, k d = .fault c ↔ P) :
    withChannel ch k = .fault c ↔ (ch = 3#2 ∧ c = .illegalOperand) ∨ (ch ≠ 3#2 ∧ P) := by
  rcases channelOf_cases ch with ⟨rfl, -⟩ | ⟨d, hd, -⟩
  · simp [eq_comm]
  · simp [withChannel_some hd, hk, ne_three_of_channelOf hd]

theorem planSetupMs_eq_fault_iff (ch : BitVec 2) (p : Pll) (div : BitVec 32) (num denom : BitVec 20)
    (s : State) (c : Code) :
    planSetupMs ch p div num denom s = .fault c ↔
      (ch = 3#2 ∧ c = .illegalOperand) ∨ (ch ≠ 3#2 ∧ denom = 0#20 ∧ c = .illegalOperand) :=
  withChannel_eq_fault_iff fun _ => withDenom_writes_eq_fault_iff ..

theorem planSetupRdiv_eq_fault_iff (ch : BitVec 2) (n : BitVec 3) (s : State) (c : Code) :
    planSetupRdiv ch n s = .fault c ↔ ch = 3#2 ∧ c = .illegalOperand := by
  rw [planSetupRdiv, withChannel_eq_fault_iff (P := False) (by simp), and_false, or_false]

theorem planSetFreq_eq_fault_iff (ch : BitVec 2) (p : Pll) (f : BitVec 32) (s : State) (c : Code) :
    planSetFreq ch p f s = .fault c ↔
      (ch = 3#2 ∧ c = .illegalOperand) ∨ (ch ≠ 3#2 ∧ f = 0#32 ∧ c = .zeroFrequency) :=
  withChannel_eq_fault_iff fun _ => withFreq_writes_eq_fault_iff ..

/-- `ILLEGAL_OPERAND` is raised for its operands and for no others (60_exceptions R158). -/
theorem planOf_eq_illegalOperand_iff (i : Instr) (s : State) :
    planOf i s = .fault .illegalOperand ↔ i.HasIllegalOperand := by
  cases i with
  | setupPll p mult num denom =>
    simp [planOf, planSetupPll, withDenom_writes_eq_fault_iff, Instr.HasIllegalOperand]
  | setupMs ch p div num denom =>
    by_cases h : ch = 3#2 <;> simp [planOf, planSetupMs_eq_fault_iff, Instr.HasIllegalOperand, h]
  | setupRdiv ch n => simp [planOf, planSetupRdiv_eq_fault_iff, Instr.HasIllegalOperand]
  | setFreq ch p f => simp [planOf, planSetFreq_eq_fault_iff, Instr.HasIllegalOperand]
  | enableOutputs en => simp [planOf_enableOutputs, Instr.HasIllegalOperand]

/-- `ZERO_FREQUENCY` is raised for SET_FREQ of 0 Hz on a legal channel and for nothing else (60_exceptions R159). -/
theorem planOf_eq_zeroFrequency_iff (i : Instr) (s : State) :
    planOf i s = .fault .zeroFrequency ↔ ∃ ch p, ch ≠ 3#2 ∧ i = .setFreq ch p 0#32 := by
  cases i with
  | setupPll p mult num denom => simp [planOf, planSetupPll, withDenom_writes_eq_fault_iff]
  | setupMs ch p div num denom => simp [planOf, planSetupMs_eq_fault_iff]
  | setupRdiv ch n => simp [planOf, planSetupRdiv_eq_fault_iff]
  | setFreq ch p f => simp [planOf, planSetFreq_eq_fault_iff]
  | enableOutputs en => simp [planOf_enableOutputs]

theorem exec_of_illegalOperand {i : Instr} (h : i.HasIllegalOperand) (s : State) :
    exec i s = .next (s.completed 0x2#32) := by
  rw [exec_fault ((planOf_eq_illegalOperand_iff i s).2 h), statusWord_illegalOperand]

/-- Settles O29: each of the five operand shapes is one that raises `ILLEGAL_OPERAND`. -/
theorem illegalOperandIsRaised : Obligations.IllegalOperandIsRaised := by
  unfold Obligations.IllegalOperandIsRaised
  refine ⟨fun s p div num denom => ?msChannel, fun s n => ?rdivChannel, fun s p f => ?freqChannel,
    fun s p mult num => ?pllDenom, fun s ch p div num => ?msDenom⟩
  case msChannel => exact exec_of_illegalOperand (i := .setupMs 3#2 p div num denom) (.inl rfl) s
  case rdivChannel => exact exec_of_illegalOperand (i := .setupRdiv 3#2 n) rfl s
  case freqChannel => exact exec_of_illegalOperand (i := .setFreq 3#2 p f) rfl s
  case pllDenom => exact exec_of_illegalOperand (i := .setupPll p mult num 0#20) rfl s
  case msDenom => exact exec_of_illegalOperand (i := .setupMs ch p div num 0#20) (.inr rfl) s

/-- Settles O30: the plan is the fault `ZERO_FREQUENCY`, which is taken with no write. -/
theorem zeroFrequencyIsRaised : Obligations.ZeroFrequencyIsRaised := by
  unfold Obligations.ZeroFrequencyIsRaised
  intro s ch p hch
  have hplan : planOf (.setFreq ch p 0#32) s = .fault .zeroFrequency :=
    (planOf_eq_zeroFrequency_iff _ s).2 ⟨ch, p, hch, rfl⟩
  rw [exec_fault hplan, statusWord_zeroFrequency]

end Sys2Proof.Machine
end

section
/-! `BUS_ERROR` (60_exceptions R161): the state a command leaves when one of its writes is answered `ERR`. -/

namespace Sys2Proof.Machine

/-- The model's run of a failing write leaves what the spec says of it. -/
theorem completed_memWrite_err (s : State) (pre : List Write) (w : Write) (answers : List Answer) :
    ((s.wrote pre answers).memWrite w .err).completed (statusWord .busError pre.length w.addr) =
      s.failedAt pre w answers := rfl

@[simp] theorem State.failedAt_status (s : State) (pre : List Write) (w : Write)
    (answers : List Answer) :
    (s.failedAt pre w answers).status = statusWord .busError pre.length w.addr := rfl

@[simp] theorem State.failedAt_log (s : State) (pre : List Write) (w : Write)
    (answers : List Answer) :
    (s.failedAt pre w answers).log =
      s.log ++ okEntries s.busaddr pre ++ [⟨s.busaddr, w.addr, w.data, .err⟩] := rfl

/-- Settles O31: the run of the plan stops at the write whose answer is `ERR`. -/
theorem busErrorIsPrecise : Obligations.BusErrorIsPrecise := by
  unfold Obligations.BusErrorIsPrecise
  intro i s pl pre w post answers hplan hwrites hbus
  rw [exec_eq_run, hplan, State.run, hwrites, hbus, drive_error, State.finish_eq_completed,
    Nat.zero_add, completed_memWrite_err]

end Sys2Proof.Machine
end

section
/-! The completion codes (60_exceptions R156, R157): the word that does not decode, and each way a command ends. -/

namespace Sys2Proof.Machine

/-- Settles O33: the block takes the word, which completes with `ILLEGAL_COMMAND`. -/
theorem illegalCommandIsRaised : Obligations.IllegalCommandIsRaised := by
  unfold Obligations.IllegalCommandIsRaised
  intro s w ws why hready hport hdecode
  rw [step_of_word hready hport, takeWord_of_illegal _ hdecode, statusWord_illegalCommand]

@[simp] theorem State.waiting_mode (s : State) (pre post : List Write) (u : Update) :
    (s.waiting pre post u).mode = .busy ⟨pre.length, post, u⟩ := rfl

/-- Validate lets a command pass whose plan is a write list (60_exceptions R162). -/
theorem wellFormed_of_planOf {i : Instr} {s : State} {pl : Plan} (hp : planOf i s = .writes pl) :
    i.wellFormed = true := by
  rw [← Bool.not_eq_false, wellFormed_eq_false_iff i s, hp]
  rintro ⟨c, hc⟩
  cases hc

@[simp] theorem length_okEntries (d : BitVec 7) (ws : List Write) :
    (okEntries d ws).length = ws.length := List.length_map ..

theorem answer_of_mem_okEntries {d : BitVec 7} {ws : List Write} {e : LogEntry}
    (h : e ∈ okEntries d ws) : e.answer = .ok := by
  obtain ⟨w, -, rfl⟩ := List.mem_map.1 h
  rfl

/-- How a command ends (60_exceptions R156, R162): all its writes answered `OK`, one of the two faults of Validate, or
a write answered `ERR`. -/
theorem exec_idle_cases {i : Instr} {s t : State} (h : exec i s = .next t) (hidle : t.mode = .idle) :
    (∃ pl rest, planOf i s = .writes pl ∧
      t = ((s.wrote pl.writes rest).apply pl.update).completed
        (statusWord .ok pl.writes.length 0#8)) ∨
    (i.HasIllegalOperand ∧ t = s.completed 0x2#32) ∨
    ((∃ ch p, ch ≠ 3#2 ∧ i = .setFreq ch p 0#32) ∧ t = s.completed 0x3#32) ∨
    (∃ pre w rest, i.wellFormed = true ∧ t = s.failedAt pre w rest) := by
  rcases exec_cases h with ⟨c, hp, rfl⟩ | ⟨pl, hp, hend⟩
  · rcases planOf_cases i s with hi | hz | ⟨pl, hw, -⟩
    · obtain rfl : c = .illegalOperand := by simpa [hp] using hi
      exact .inr (.inl ⟨(planOf_eq_illegalOperand_iff i s).1 hp, by rw [statusWord_illegalOperand]⟩)
    · obtain rfl : c = .zeroFrequency := by simpa [hp] using hz
      exact .inr (.inr (.inl
        ⟨(planOf_eq_zeroFrequency_iff i s).1 hp, by rw [statusWord_zeroFrequency]⟩))
    · rw [hp] at hw
      cases hw
  · rcases hend with ⟨rest, -, rfl⟩ | ⟨pre, w, post, rest, -, -, rfl⟩ | ⟨pre, w, post, -, -, rfl⟩
    · exact .inl ⟨pl, rest, hp, rfl⟩
    · exact .inr (.inr (.inr ⟨pre, w, rest, wellFormed_of_planOf hp, completed_memWrite_err ..⟩))
    · rw [State.waiting_mode] at hidle
      cases hidle

/-- Settles O32: row by row, by the ways a command ends. -/
theorem completionCodes : Obligations.CompletionCodes := by
  unfold Obligations.CompletionCodes
  refine ⟨fun s w why hdecode => ?illegalWord, fun i s t hexec hidle => ?command⟩
  case illegalWord => rw [takeWord_of_illegal s hdecode, statusWord_illegalCommand]
  case command =>
    rcases exec_idle_cases hexec hidle with ⟨pl, rest, hp, rfl⟩ | ⟨hop, rfl⟩ | ⟨hzero, rfl⟩ |
      ⟨pre, w, rest, hwf, rfl⟩
    · rw [hp, plannedWrites]
      refine .inl ⟨statusCode_statusWord .., statusNwr_statusWord .., statusFaddr_statusWord ..,
        wellFormed_of_planOf hp, ?_⟩
      rw [State.completed_log, State.apply_log, State.wrote_log]
    · exact .inr (.inl ⟨rfl, rfl, by cases i <;> exact hop⟩)
    · exact .inr (.inr (.inl ⟨rfl, rfl, hzero⟩))
    · refine .inr (.inr (.inr ⟨statusCode_statusWord .., hwf, okEntries s.busaddr pre, _,
        State.failedAt_log .., rfl, (statusFaddr_statusWord ..).symm, ?_,
        fun _ => answer_of_mem_okEntries⟩))
      rw [State.failedAt_status, statusNwr_statusWord, length_okEntries]

end Sys2Proof.Machine
end

section
/-! The round trip of a command through its word (30_encoding R62 to R65), both ways, and the words the spec writes
out. -/

namespace Sys2Proof

/-- The word of a command matches its own row: no bit outside the row's fields is set. -/
theorem encode_matches_row (i : Instr) : encode i &&& maskBits i.opcode = matchBits i.opcode := by
  rw [← matchesRow_iff]
  cases i with
  | setupPll p mult num denom => exact Laws.RowSpelling.setupPll p mult num denom
  | setupMs ch p div num denom => exact Laws.RowSpelling.setupMs ch p div num denom
  | setupRdiv ch n => exact Laws.RowSpelling.setupRdiv ch n
  | setFreq ch p f => exact Laws.RowSpelling.setFreq ch p f
  | enableOutputs en => exact Laws.RowSpelling.enableOutputs en

theorem ofBool_beq_one (en : Bool) : (BitVec.ofBool en == 1#1) = en := by cases en <;> rfl

/-- A row reads its own command back from the word. -/
theorem readRow_encode (i : Instr) : readRow (encode i) i.opcode = i := by
  cases i <;> simp [encode, readRow, Instr.opcode, ofBool_beq_one]

/-- Settles O4: the row of the command matches, and its fields are the operands. -/
theorem decodeOfEncode : Obligations.DecodeOfEncode := by
  unfold Obligations.DecodeOfEncode
  intro i
  rw [decode_of_row (encode_matches_row i), readRow_encode]

@[simp] theorem bit_pllOfBit (x : BitVec 1) : (pllOfBit x).bit = x := by
  revert x
  decide

@[simp] theorem ofBool_beq_one_self (x : BitVec 1) : BitVec.ofBool (x == 1#1) = x := by
  revert x
  decide

/-- A word whose reserved bits are 0 is built from its eight other fields. -/
theorem cmdWord_fields {w : CmdWord} (hlow : fieldLowReserved w = 0#5)
    (hhigh : fieldHighReserved w = 0#40) :
    cmdWord (fieldOp w) (fieldCh w) (fieldPll w) (fieldEn w) (fieldRx w) (fieldArg w) (fieldNum w)
      (fieldDen w) = w := by
  apply word_eq_of_fields_eq <;> simp [hlow, hhigh]

/-- A word that matches a row is the word of the command the row reads: every field the row does not read is 0 in
both. -/
theorem encode_readRow {w : CmdWord} {o : Opcode} (h : w &&& maskBits o = matchBits o) :
    encode (readRow w o) = w := by
  obtain ⟨hop, hch, hpll, hen, hrx, hlow, harg, hnum, hden, hhigh⟩ :=
    (and_maskBits_eq_matchBits_iff w o).1 h
  refine Eq.trans ?_ (cmdWord_fields hlow hhigh)
  cases o <;> simp_all [encode, readRow]

/-- Settles O5: a word decodes to what its row reads. -/
theorem encodeOfDecode : Obligations.EncodeOfDecode := by
  unfold Obligations.EncodeOfDecode
  intro w i hi
  obtain ⟨o, hrow, rfl⟩ := (decode_eq_command_iff w i).1 hi
  exact encode_readRow hrow

/-- Settles O1: the words are literals, so the decoder computes. -/
theorem knownWordsDecode : Obligations.KnownWordsDecode := by
  unfold Obligations.KnownWordsDecode
  decide

end Sys2Proof
end

section
/-! The completion word (60_exceptions R162) read back and as a number, and which of them are legal (10_state R27). -/

namespace Sys2Proof.Machine

@[simp] theorem statusReserved_statusWord (c : Code) (n : Nat) (a : Addr) :
    statusReserved (statusWord c n a) = 0#16 := by
  rw [statusReserved, statusWord, BitVec.extractLsb'_append_eq_of_le (by decide),
    BitVec.extractLsb'_append_eq_of_le (by decide), BitVec.extractLsb'_append_eq_of_le (by decide)]
  rfl

theorem toNat_statusWord (c : Code) (n : Nat) (a : Addr) :
    (statusWord c n a).toNat = a.toNat * 256 + n % 16 * 16 + (codeBits c).toNat := by
  show BitVec.toNat (0#16 ++ a ++ BitVec.ofNat 4 n ++ codeBits c : BitVec (16 + 8 + 4 + 4)) = _
  simp only [toNat_append_eq_add, BitVec.toNat_ofNat]
  omega

/-- Settles O34: each field is cut out of the word where it was put in, and a count below 16 fits its four bits. -/
theorem statusWordFields : Obligations.StatusWordFields := by
  unfold Obligations.StatusWordFields
  intro c n a hn
  have hmod : n % 16 = n := Nat.mod_eq_of_lt hn
  refine ⟨statusCode_statusWord .., ?count, statusFaddr_statusWord .., statusReserved_statusWord .., ?number⟩
  case count => rw [statusNwr_statusWord, BitVec.toNat_ofNat, hmod]
  case number => rw [toNat_statusWord, hmod]

theorem codeBits_le_four (c : Code) : (codeBits c).toNat ≤ 4 := by cases c <;> decide

/-- A completion word with at most ten writes, and an address only with `BUS_ERROR`, is one the block can give. -/
theorem statusLegal_statusWord {c : Code} {n : Nat} {a : Addr} (hn : n ≤ 10)
    (ha : a = 0#8 ∨ c = .busError) : statusLegal (statusWord c n a) = true := by
  have hcode := codeBits_le_four c
  have hmod : n % 16 ≤ 10 := (Nat.mod_le n 16).trans hn
  rcases ha with rfl | rfl
  · simp [statusLegal, hcode, hmod]
  · simp [statusLegal, hmod, codeBits]

end Sys2Proof.Machine
end

section
/-! The invariant (10_state R22 to R27, 20_memory R41, R51): the construction meets it, each shared operation keeps
it, and so does every step. -/

namespace Sys2Proof.Machine

/-! ### The construction -/

/-- 10_state R32 meets the invariant: the status is 0, and the empty bank is the image of the empty log. -/
theorem State.inv_construct {cfg : Config} (h : cfg.legal = true) : (State.construct cfg).Inv where
  cfg_legal := h
  xtal_configured := rfl
  busaddr_configured := rfl
  status_legal := by rw [State.construct_status]; decide
  responses_legal := by simp [State.construct]
  mode_legal := rfl
  bank_wf := wf_bank_construct cfg
  bank_in_space := by simp
  bank_is_image a := rfl

/-- Settles O18: `State.reset` is the construction with the defaults, which are legal. -/
theorem resetMeetsTheInvariant : Obligations.ResetMeetsTheInvariant := by
  unfold Obligations.ResetMeetsTheInvariant
  exact ⟨State.inv_construct (by decide), fun cfg => State.inv_construct⟩

/-! ### The operations -/

/-- The invariant reads neither the registers nor the inputs of the block. -/
theorem State.Inv.of_eq {s t : State} (h : s.Inv) (hcfg : t.cfg = s.cfg) (hxtal : t.xtal = s.xtal)
    (hbusaddr : t.busaddr = s.busaddr) (hstatus : t.status = s.status)
    (hresponses : t.responses = s.responses) (hmode : t.mode = s.mode) (hbank : t.bank = s.bank)
    (hlog : t.log = s.log) : t.Inv where
  cfg_legal := by rw [hcfg, h.cfg_legal]
  xtal_configured := by rw [hxtal, hcfg, h.xtal_configured]
  busaddr_configured := by rw [hbusaddr, hcfg, h.busaddr_configured]
  status_legal := by rw [hstatus, h.status_legal]
  responses_legal := by rw [hresponses]; exact h.responses_legal
  mode_legal := by rw [hmode, h.mode_legal]
  bank_wf := by rw [hbank, h.bank_wf]
  bank_in_space := by rw [hbank]; exact h.bank_in_space
  bank_is_image a := by rw [hbank, hlog, h.bank_is_image]

/-- An answered write keeps the bank the image of the log, whatever the answer (20_memory R51). -/
theorem State.Inv.memWrite {s : State} (h : s.Inv) (w : Write) (a : Answer) : (s.memWrite w a).Inv where
  cfg_legal := h.cfg_legal
  xtal_configured := h.xtal_configured
  busaddr_configured := h.busaddr_configured
  status_legal := h.status_legal
  responses_legal := h.responses_legal
  mode_legal := h.mode_legal
  bank_wf := wf_bankAfter w a h.bank_wf
  bank_in_space := mem_bankAfter_lt h.bank_in_space
  bank_is_image := bankAfter_is_image h.bank_wf h.bank_is_image s.busaddr w a

theorem State.Inv.wrote {s : State} (h : s.Inv) (ws : List Write) (answers : List Answer) :
    (s.wrote ws answers).Inv := by
  induction ws generalizing s with
  | nil => exact h.of_eq rfl rfl rfl rfl rfl rfl rfl (List.append_nil s.log)
  | cons w ws ih =>
    rw [← wrote_memWrite]
    exact ih (h.memWrite w .ok)

theorem State.Inv.apply {s : State} (h : s.Inv) (u : Update) : (s.apply u).Inv :=
  h.of_eq (s.apply_cfg u) (s.apply_xtal u) (s.apply_busaddr u) (s.apply_status u)
    (s.apply_responses u) (s.apply_mode u) (s.apply_bank u) (s.apply_log u)

/-- A completion returns the word it sets, so a legal one keeps the responses legal. -/
theorem State.Inv.finish {s : State} (h : s.Inv) {c : Code} {n : Nat} {a : Addr} (hn : n ≤ 10)
    (ha : a = 0#8 ∨ c = .busError) : (s.finish c n a).Inv where
  cfg_legal := h.cfg_legal
  xtal_configured := h.xtal_configured
  busaddr_configured := h.busaddr_configured
  status_legal := statusLegal_statusWord hn ha
  responses_legal r hr := by
    rw [State.finish_responses, List.mem_append, List.mem_singleton] at hr
    rcases hr with hr | rfl
    · exact h.responses_legal r hr
    · exact statusLegal_statusWord hn ha
  mode_legal := rfl
  bank_wf := h.bank_wf
  bank_in_space := h.bank_in_space
  bank_is_image := h.bank_is_image

theorem State.Inv.withMode {s : State} (h : s.Inv) {m : Mode} (hm : m.legal = true) :
    ({ s with mode := m } : State).Inv where
  cfg_legal := h.cfg_legal
  xtal_configured := h.xtal_configured
  busaddr_configured := h.busaddr_configured
  status_legal := h.status_legal
  responses_legal := h.responses_legal
  mode_legal := hm
  bank_wf := h.bank_wf
  bank_in_space := h.bank_in_space
  bank_is_image := h.bank_is_image

/-- The three endings of a run of at most ten writes: every count in a completion word or in a waiting command is at
most the number of the writes. -/
theorem State.Inv.drive {s : State} (h : s.Inv) {done : Nat} (u : Update) {ws : List Write}
    (answers : List Answer) (hlen : done + ws.length ≤ 10) : (s.drive done u ws answers).Inv := by
  rcases drive_cases s done u ws answers with ⟨rest, -, heq⟩ | ⟨pre, w, post, rest, rfl, -, heq⟩ |
    ⟨pre, w, post, rfl, -, heq⟩ <;> rw [heq]
  · exact ((h.wrote ws rest).apply u).finish hlen (.inl rfl)
  · rw [List.length_append] at hlen
    exact ((h.wrote pre rest).memWrite w .err).finish (by omega) (.inr rfl)
  · rw [List.length_append] at hlen
    refine (h.wrote pre []).withMode ?_
    simp only [Mode.legal, List.isEmpty_cons, Bool.not_false, Bool.true_and, decide_eq_true_eq]
    omega

theorem State.Inv.raise {s : State} (h : s.Inv) (c : Code) : (s.raise c).Inv :=
  h.finish (Nat.zero_le 10) (.inl rfl)

theorem State.Inv.run {s : State} (h : s.Inv) (i : Instr) : (s.run (planOf i s)).Inv := by
  rcases planOf_cases i s with hp | hp | ⟨pl, hp, -, hlen⟩ <;> rw [hp]
  · exact h.raise .illegalOperand
  · exact h.raise .zeroFrequency
  · exact h.drive pl.update s.bus (by rwa [Nat.zero_add])

/-- A command in progress is within bounds, so its completion is (10_state R25). -/
theorem State.Inv.resume {s : State} (h : s.Inv) {f : Flight} (hm : s.mode = .busy f) :
    (s.resume f).Inv := by
  have hlegal := h.mode_legal
  rw [hm, Mode.legal, Bool.and_eq_true, decide_eq_true_eq] at hlegal
  exact h.drive f.update s.bus hlegal.2

/-- A reset sets the block's own state and keeps log and bank (70_reset R176). -/
theorem State.Inv.constructDevice {s : State} (h : s.Inv) {cfg : Config} (hl : cfg.legal = true) :
    (s.constructDevice cfg).Inv :=
  { State.inv_construct hl with
    responses_legal := h.responses_legal
    bank_wf := h.bank_wf
    bank_in_space := h.bank_in_space
    bank_is_image := h.bank_is_image }

theorem State.Inv.withOutside {s : State} (h : s.Inv) (os : List Outside) :
    ({ s with outside := os } : State).Inv := h.of_eq rfl rfl rfl rfl rfl rfl rfl rfl

theorem State.Inv.withPort {s : State} (h : s.Inv) (ws : List CmdWord) :
    ({ s with port := ws } : State).Inv := h.of_eq rfl rfl rfl rfl rfl rfl rfl rfl

/-- Settles O48: each of the six things a step can do is an operation that keeps the invariant. -/
theorem stepKeepsTheInvariant : Obligations.StepKeepsTheInvariant := by
  unfold Obligations.StepKeepsTheInvariant
  intro s t hinv hstep
  obtain ⟨-, ⟨cfg, os, -, hlegal, rfl⟩ | ⟨os, -, -, rfl⟩ | ⟨f, -, hmode, rfl⟩ | ⟨-, -, -, rfl⟩ |
    ⟨w, ws, why, -, -, -, -, rfl⟩ | ⟨w, ws, i, -, -, -, -, rfl⟩⟩ := step_cases hstep
  · exact (hinv.withOutside os).constructDevice hlegal
  · exact hinv.withOutside os
  · exact hinv.resume hmode
  · exact hinv
  · exact (hinv.withPort ws).raise .illegalCommand
  · exact (hinv.withPort ws).run i

end Sys2Proof.Machine
end

section
/-! The laws of the Field Packer: the round trip (40_field_packer R92, R93, R99), the fraction that is a whole
(R100), and the R-divider byte (30_encoding R70, 43_rdiv R128). -/

namespace Sys2Proof.Machine

/-! ### The round trip -/

theorem quotient_mul_add_mod (b c : Nat) : c * quotient b c + 128 * b % c = 128 * b :=
  Nat.div_add_mod (128 * b) c

/-- R92: a fraction below 1 has a quotient of at most seven bits. -/
theorem quotient_le_of_lt {b c : Nat} (h : b < c) : quotient b c ≤ 127 := by
  have hlt : quotient b c < 128 :=
    Nat.div_lt_of_lt_mul (by rw [Nat.mul_comm c]; exact Nat.mul_lt_mul_of_pos_left h (by decide))
  omega

/-- P1 and its offset: the low seven bits are the quotient, and the mask wraps the integer part (R93, R98). -/
theorem toNat_p1_pack_add {a b c : Nat} (h : b < c) :
    (pack a b c).p1.toNat + 512 = 128 * ((a + 2044) % 2048 + 4) + quotient b c := by
  have hp1 := toNat_p1_pack a b c
  have hq := quotient_le_of_lt h
  omega

/-- The low seven bits give the numerator back, and the others the integer part. -/
theorem unpack_pack {a b c : Nat} (h : b < c) (hc : c ≤ 1048575) :
    unpack (pack a b c) = ((a + 2044) % 2048 + 4, b, c) := by
  have hq := quotient_le_of_lt h
  have hp3 : (pack a b c).p3.toNat = c := by rw [toNat_p3_pack, Nat.mod_eq_of_lt (by omega)]
  have hint : (128 * ((a + 2044) % 2048 + 4) + quotient b c) / 128 = (a + 2044) % 2048 + 4 := by omega
  have hlow : (128 * ((a + 2044) % 2048 + 4) + quotient b c) % 128 = quotient b c := by omega
  have hnum : 128 * b / 128 = b := Nat.mul_div_cancel_left b (by decide)
  simp only [unpack, toNat_p1_pack_add h, hp3, toNat_p2_pack_of_le a b (Nat.one_le_of_lt h) hc, hint,
    hlow, quotient_mul_add_mod, hnum]

/-- Settles O8: on the domain the wrap of the integer part does nothing. -/
theorem unpackOfPack : Obligations.UnpackOfPack := by
  unfold Obligations.UnpackOfPack
  intro a b c h hc
  refine ⟨unpack_pack h hc, fun hlow hhigh => ?domain, ?numerator, quotient_le_of_lt h, ?denominator⟩
  case domain =>
    have hwrap : (a + 2044) % 2048 + 4 = a := by omega
    rw [unpack_pack h hc, hwrap]
  case numerator => rw [toNat_p2_pack_of_le a b (Nat.one_le_of_lt h) hc, quotient_mul_add_mod]
  case denominator => rw [toNat_p3_pack, Nat.mod_eq_of_lt (by omega)]

/-! ### The fraction `c/c` -/

theorem quotient_self {c : Nat} (h : 1 ≤ c) : quotient c c = 128 := Nat.mul_div_cancel 128 h

/-- R100: the fraction `c/c` is one more in the integer part, with no remainder either way. -/
theorem pack_self {c : Nat} (h : 1 ≤ c) (a : Nat) : pack a c c = pack (a + 1) 0 c := by
  have hzero : quotient 0 c = 0 := Nat.zero_div c
  have hp1 : 128 * (a : Int) + 128 - 512 = 128 * ((a + 1 : Nat) : Int) + 0 - 512 := by
    push_cast
    ring
  simp [pack, quotient_self h, hzero, Nat.mul_comm c, hp1]

/-- Settles O9: the two packings are equal, so their bytes are; the example computes. -/
theorem packOfEqualFraction : Obligations.PackOfEqualFraction := by
  unfold Obligations.PackOfEqualFraction
  refine ⟨fun a c hc => ⟨quotient_self hc, ?remainder, ?p1, congrArg blockBytes (pack_self hc a)⟩,
    by decide, by decide⟩
  case remainder =>
    apply BitVec.eq_of_toNat_eq
    rw [toNat_p2_pack, Nat.mul_mod_left]
    rfl
  case p1 =>
    have hp1 := toNat_p1_pack a c c
    rw [quotient_self hc] at hp1
    omega

/-! ### The R-divider byte -/

theorem toNat_rdivByte (n : BitVec 3) (low : BitVec 2) :
    (rdivByte n low).toNat = n.toNat * 16 + low.toNat := by
  revert n low
  decide

/-- Settles O12: the byte's number fixes its fields, and the bases fix the addresses. -/
theorem rdivByteLayout : Obligations.RdivByteLayout := by
  unfold Obligations.RdivByteLayout
  refine ⟨fun n low => ?byte, fun cfg p1hi => ?low, fun c => rfl, by decide, by decide, by decide⟩
  case byte =>
    have hbyte := toNat_rdivByte n low
    have hn := n.isLt
    have hlow := low.isLt
    refine ⟨?_, ?_, ?_, ?_, hbyte⟩ <;> apply BitVec.eq_of_toNat_eq <;>
      simp only [toNat_extractLsb', hbyte, BitVec.toNat_ofNat] <;> omega
  case low => constructor <;> intro h <;> rw [rdivLow, h]

end Sys2Proof.Machine
end

section
/-! The reducer as a number of halvings (44_resolver R140), and the bounds of what SET_FREQ resolves to (R134 to
R138). -/

namespace Sys2Proof.Machine

/-! ### The reducer -/

theorem div_two_div_two_pow (n h : Nat) : n / 2 / 2 ^ h = n / 2 ^ (h + 1) := by
  rw [Nat.div_div_eq_div_mul, pow_succ']

/-- R140 (a), (b): the loop halves until the denominator fits, and no further. -/
theorem reduce_eq_halvings (num den : Nat) :
    ∃ h, den / 2 ^ h ≤ fracLimit ∧ (∀ k, k < h → fracLimit < den / 2 ^ k) ∧
      reduce num den = (num / 2 ^ h, den / 2 ^ h) := by
  induction den using Nat.strong_induction_on generalizing num with
  | _ den ih =>
    rcases Nat.lt_or_ge fracLimit den with hgt | hle
    · have hhalf : den / 2 < den := Nat.div_lt_self (Nat.zero_lt_of_lt hgt) (by decide)
      obtain ⟨h, hfits, hleast, heq⟩ := ih (den / 2) hhalf (num / 2)
      simp only [div_two_div_two_pow] at hfits hleast heq
      refine ⟨h + 1, hfits, fun k hk => ?_, by rw [reduce_of_gt hgt, heq]⟩
      cases k with
      | zero => simpa using hgt
      | succ k => exact hleast k (Nat.lt_of_succ_lt_succ hk)
    · exact ⟨0, by simpa using hle, fun k hk => absurd hk k.not_lt_zero,
        by simp [reduce_of_le hle]⟩

/-- R140 (c): the last halving was of a denominator above the limit. -/
theorem le_div_two_pow_of_halved {den h : Nat} (hh : 1 ≤ h)
    (hleast : ∀ k, k < h → fracLimit < den / 2 ^ k) : 524288 ≤ den / 2 ^ h := by
  obtain ⟨k, rfl⟩ : ∃ k, h = k + 1 := ⟨h - 1, by omega⟩
  have hlast : fracLimit < den / 2 ^ k := hleast k (Nat.lt_succ_self k)
  have hhalf : den / 2 ^ (k + 1) = den / 2 ^ k / 2 := by rw [pow_succ, Nat.div_div_eq_div_mul]
  rw [fracLimit] at hlast
  omega

/-- R140 (c): the reduced denominator is not 0. -/
theorem one_le_div_two_pow {den h : Nat} (hden : 1 ≤ den)
    (hleast : ∀ k, k < h → fracLimit < den / 2 ^ k) : 1 ≤ den / 2 ^ h := by
  rcases Nat.eq_zero_or_pos h with rfl | hh
  · simpa using hden
  · exact Nat.le_trans (by decide) (le_div_two_pow_of_halved hh hleast)

/-- R140 (f): twelve halvings bring 32 bits down to 20. -/
theorem halvings_le_twelve {den h : Nat} (hden : den < 2 ^ 32)
    (hleast : ∀ k, k < h → fracLimit < den / 2 ^ k) : h ≤ 12 := by
  by_contra hgt
  have hlast : fracLimit < den / 2 ^ 12 := hleast 12 (Nat.lt_of_not_le hgt)
  rw [fracLimit] at hlast
  omega

/-- Settles O15: every bound is one on the number of halvings; the two examples compute. -/
theorem reduceProperties : Obligations.ReduceProperties := by
  unfold Obligations.ReduceProperties
  refine ⟨fun num den hlt => ?_, by decide, by decide, by decide⟩
  obtain ⟨h, hfits, hleast, heq⟩ := reduce_eq_halvings num den
  exact ⟨h, hfits, hleast, heq, one_le_div_two_pow (Nat.one_le_of_lt hlt) hleast,
    fun hh => le_div_two_pow_of_halved hh hleast, Nat.div_le_div_right hlt.le,
    fun hden => halvings_le_twelve hden hleast⟩

/-- R140 (c), (d): what the reducer gives meets the contract of the Field Packer. -/
theorem reduce_bounds {num den : Nat} (hden : 1 ≤ den) (hle : num ≤ den) :
    1 ≤ (reduce num den).2 ∧ (reduce num den).2 ≤ fracLimit ∧
      (reduce num den).1 ≤ (reduce num den).2 := by
  obtain ⟨h, hfits, hleast, heq⟩ := reduce_eq_halvings num den
  rw [heq]
  exact ⟨one_le_div_two_pow hden hleast, hfits, Nat.div_le_div_right hle⟩

/-! ### The stage -/

/-- Every frequency from 4000 Hz up to 512,000 Hz is in one of the seven bands (44_resolver R134). -/
theorem exists_inBand {f : Nat} (hlow : 4000 ≤ f) (hhigh : f < 512000) :
    ∃ k, k < 7 ∧ inBand f k = true := by
  have hne : f / 4000 ≠ 0 := by omega
  refine ⟨Nat.log2 (f / 4000), (Nat.log2_lt hne).2 (by omega), ?_⟩
  have hbegin : 2 ^ Nat.log2 (f / 4000) ≤ f / 4000 := Nat.log2_self_le hne
  have hend : f / 4000 < 2 ^ (Nat.log2 (f / 4000) + 1) := Nat.lt_log2_self
  rw [inBand_eq_true_iff]
  omega

theorem stage_le_seven (f : Nat) : stage f ≤ 7 := by
  by_cases hout : f < 4000 ∨ 512000 ≤ f
  · rw [stage_of_outside hout]
    decide
  · obtain ⟨k, hk, hband⟩ := exists_inBand (by omega : 4000 ≤ f) (by omega)
    rw [stage_of_inBand hk hband]
    omega

/-- R136: the stage brings the begin of a band to 512,000 Hz, and its end to twice that. -/
theorem scaled_frequency_bounds {f : Nat} (hlow : 4000 ≤ f) (hhigh : f < 512000) :
    512000 ≤ f * 2 ^ stage f ∧ f * 2 ^ stage f < 1024000 := by
  obtain ⟨k, hk, hband⟩ := exists_inBand hlow hhigh
  obtain ⟨hbegin, hend⟩ := (inBand_eq_true_iff f k).1 hband
  have hscale : 2 ^ k * 2 ^ (7 - k) = 128 := by
    rw [← pow_add, Nat.add_sub_of_le (Nat.le_of_lt hk)]
    rfl
  rw [stage_of_inBand hk hband]
  constructor
  · calc 512000 = 4000 * 2 ^ k * 2 ^ (7 - k) := by rw [Nat.mul_assoc, hscale]
      _ ≤ f * 2 ^ (7 - k) := Nat.mul_le_mul_right _ hbegin
  · calc f * 2 ^ (7 - k) < 4000 * 2 ^ (k + 1) * 2 ^ (7 - k) :=
        Nat.mul_lt_mul_of_pos_right hend (by positivity)
      _ = 4000 * (2 ^ k * 2 ^ (7 - k)) * 2 := by ring
      _ = 1024000 := by rw [hscale]

/-! ### The resolved operands -/

/-- The remainder is below the scaled frequency, so the fraction meets the packer's contract (R138, R140). -/
theorem resolve_bounds (fvco : Nat) {f : Nat} (hf : 1 ≤ f) :
    1 ≤ (resolve fvco f).den ∧ (resolve fvco f).den ≤ fracLimit ∧
      (resolve fvco f).num ≤ (resolve fvco f).den := by
  have hpos : 0 < f * 2 ^ stage f := Nat.mul_pos hf (by positivity)
  exact reduce_bounds hpos (Nat.mod_lt fvco hpos).le

/-- Settles O16: the reducer bounds the fraction, the bands bound the stage. -/
theorem resolveIsWithinBounds : Obligations.ResolveIsWithinBounds := by
  unfold Obligations.ResolveIsWithinBounds
  intro fvco f hf
  obtain ⟨hpos, hfits, hle⟩ := resolve_bounds fvco hf
  exact ⟨hpos, hfits, hle, stage_le_seven f, Nat.div_le_self .., scaled_frequency_bounds⟩

end Sys2Proof.Machine
end

section
/-! SET_FREQ and SETUP_MS compared (44_resolver R141), and the R-divider field that both leave (42_multisynth R121). -/

namespace Sys2Proof.Machine

/-! ### SET_FREQ is SETUP_MS and then SETUP_RDIV -/

/-- The resolved fraction is one that the fields `NUM` and `DEN` hold, and a legal one. -/
theorem resolved_operands_fit (fvco : Nat) {f : BitVec 32} (hf : f ≠ 0#32) :
    (BitVec.ofNat 20 (resolve fvco f.toNat).num).toNat = (resolve fvco f.toNat).num ∧
      (BitVec.ofNat 20 (resolve fvco f.toNat).den).toNat = (resolve fvco f.toNat).den ∧
      BitVec.ofNat 20 (resolve fvco f.toNat).den ≠ 0#20 := by
  obtain ⟨hpos, hfits, hle⟩ := resolve_bounds fvco (BitVec.toNat_pos_of_ne_zero hf)
  rw [fracLimit] at hfits
  have hden : (BitVec.ofNat 20 (resolve fvco f.toNat).den).toNat = (resolve fvco f.toNat).den := by
    rw [BitVec.toNat_ofNat, Nat.mod_eq_of_lt (by omega)]
  refine ⟨by rw [BitVec.toNat_ofNat, Nat.mod_eq_of_lt (by omega)], hden, fun hzero => ?_⟩
  rw [hzero, BitVec.toNat_zero] at hden
  omega

/-- Settles O27: SETUP_MS makes the first nine of the ten writes and records the P1HI that SETUP_RDIV then reads. -/
theorem setFreqIsSetupMsThenSetupRdiv : Obligations.SetFreqIsSetupMsThenSetupRdiv := by
  unfold Obligations.SetFreqIsSetupMsThenSetupRdiv
  intro ch c p f s answers hc hf hb r hdiv
  obtain ⟨hnum, hden, hlegal⟩ := resolved_operands_fit (s.vco p).toNat hf
  have hdivFits : (BitVec.ofNat 32 r.div).toNat = r.div := by
    rw [BitVec.toNat_ofNat, Nat.mod_eq_of_lt hdiv]
  have hms := exec_setupMs_all_ok hc p (BitVec.ofNat 32 r.div) (BitVec.ofNat 20 r.num) hlegal s
    (answers := .ok :: answers) hb
  rw [hdivFits, hnum, hden] at hms
  have hrest : (((s.wrote (msPlan s.cfg c p r.div r.num r.den).writes (.ok :: answers)).setP1hi c
      (p1High (pack r.div r.num r.den))).completed 0x90#32).bus = .ok :: answers := by
    rw [State.completed_bus, State.setP1hi_bus, State.wrote_bus]
  refine ⟨_, _, _, exec_setFreq_all_ok hc p hf hb rfl, hms, exec_setupRdiv_ok hc _ hrest, ?_⟩
  simp [resolvedPlan_writes, bankWith_append, r]

/-! ### The R-divider field after a command -/

/-- The last write to an address is the one that is read there. -/
theorem read_bankWith_append_cons (pre : List Write) {post : List Write} {w : Write}
    (h : w.addr ∉ post.map Write.addr) (m : Memory) :
    (bankWith (pre ++ w :: post) m).read w.addr.toNat = some w.data := by
  rw [bankWith_append, bankWith_cons, read_bankWith_of_ne h, Memory.read_store, if_pos rfl]

theorem zero_append_eq_zeroExtend (x : BitVec 2) : (0#6 ++ x : BitVec (6 + 2)) = x.zeroExtend 8 := by
  revert x
  decide

/-- Byte 2 of the block goes to the R-divider's address with bits 7:2 clear, and six writes follow (42_multisynth
R117, R121). -/
theorem msPlan_writes_split (cfg : Config) (c : Channel) (p : Pll) (div num denom : Nat) :
    ∃ pre post, (msPlan cfg c p div num denom).writes =
        pre ++ ⟨rdivAddr c, (p1High (pack div num denom)).zeroExtend 8⟩ :: post ∧
      post.map Write.addr = (eightFrom (msBase c)).drop 3 ++ [clkCtrlAddr cfg c] := by
  refine ⟨(msPlan cfg c p div num denom).writes.take 2, (msPlan cfg c p div num denom).writes.drop 3,
    ?split, ?addresses⟩
  case split =>
    rw [← zero_append_eq_zeroExtend]
    rfl
  case addresses =>
    rw [List.map_drop, msPlan, List.map_append, map_addr_blockWrites]
    rfl

/-- None of the bytes 3 to 7 of a channel's block is at the R-divider's address. -/
theorem rdivAddr_not_mem_drop (c : Channel) : rdivAddr c ∉ (eightFrom (msBase c)).drop 3 := by
  cases c <;> decide

/-- Settles O28: in each command the last write to the address is known. -/
theorem rdivFieldAfterMultisynthWrite : Obligations.RdivFieldAfterMultisynthWrite := by
  unfold Obligations.RdivFieldAfterMultisynthWrite
  refine ⟨fun ch c p div num denom s answers hc hd hclk hb => ?multisynth,
    fun ch c p f s answers hc hf hb => ?resolver⟩
  case multisynth =>
    refine ⟨_, exec_setupMs_all_ok hc p div num hd s hb, ?_⟩
    obtain ⟨pre, post, hwrites, haddrs⟩ :=
      msPlan_writes_split s.cfg c p div.toNat num.toNat denom.toNat
    have hlast : rdivAddr c ∉ post.map Write.addr := by
      simp [haddrs, rdivAddr_not_mem_drop, hclk.symm]
    rw [State.completed_bank, State.setP1hi_bank, State.wrote_bank, hwrites, State.completed_p1hi,
      State.setP1hi_p1hi, if_pos rfl]
    exact read_bankWith_append_cons pre hlast s.bank
  case resolver =>
    refine ⟨_, exec_setFreq_all_ok hc p hf hb rfl, ?_⟩
    rw [State.completed_bank, State.setP1hi_bank, State.wrote_bank, resolvedPlan_writes,
      State.completed_p1hi, State.setP1hi_p1hi, if_pos rfl]
    exact read_bankWith_append_cons _ List.not_mem_nil s.bank

end Sys2Proof.Machine
end

section
/-! What the run of a write list leaves unchanged, however it ends (10_state R23, R24, R26, 20_memory R51). -/

namespace Sys2Proof.Machine

/-- What no command touches: the parameters, `XTAL` and `BUSADDR` (10_state R23), and the inputs that only a step
takes. -/
structure State.Frame (s t : State) : Prop where
  cfg : t.cfg = s.cfg
  xtal : t.xtal = s.xtal
  busaddr : t.busaddr = s.busaddr
  port : t.port = s.port
  outside : t.outside = s.outside

theorem frame_drive (s : State) (done : Nat) (u : Update) (ws : List Write) (answers : List Answer) :
    s.Frame (s.drive done u ws answers) := by
  rcases drive_cases s done u ws answers with ⟨rest, -, heq⟩ | ⟨pre, w, post, rest, -, -, heq⟩ |
    ⟨pre, w, post, -, -, heq⟩ <;> rw [heq]
  · constructor <;> simp
  · exact ⟨rfl, rfl, rfl, rfl, rfl⟩
  · exact ⟨rfl, rfl, rfl, rfl, rfl⟩

theorem frame_run (s : State) (P : Planned) : s.Frame (s.run P) := by
  cases P with
  | fault c => exact ⟨rfl, rfl, rfl, rfl, rfl⟩
  | writes pl => exact frame_drive s 0 pl.update pl.writes s.bus

theorem frame_resume (s : State) (f : Flight) : s.Frame (s.resume f) :=
  frame_drive s f.done f.update f.rest s.bus

/-- An update changes a VCO register only by recording it. -/
theorem apply_vco_cases (s : State) (u : Update) (p : Pll) :
    (s.apply u).vco p = s.vco p ∨ u = .recordVco p ((s.apply u).vco p) := by
  cases u with
  | nothing => exact .inl rfl
  | recordVco q v => by_cases h : p = q <;> simp [h]
  | recordP1hi c v => exact .inl (State.setP1hi_vco ..)

/-- An update changes a channel's P1HI only by recording it. -/
theorem apply_p1hi_cases (s : State) (u : Update) (c : Channel) :
    (s.apply u).p1hi c = s.p1hi c ∨ u = .recordP1hi c ((s.apply u).p1hi c) := by
  cases u with
  | nothing => exact .inl rfl
  | recordVco p v => exact .inl (State.setVco_p1hi ..)
  | recordP1hi d v => by_cases h : c = d <;> simp [h]

theorem apply_wrote_registers (s : State) (ws : List Write) (answers : List Answer) (u : Update) :
    (∀ p, ((s.wrote ws answers).apply u).vco p = (s.apply u).vco p) ∧
      ∀ c, ((s.wrote ws answers).apply u).p1hi c = (s.apply u).p1hi c := by
  cases u <;> simp

/-- The registers after a run of a write list are as before, or the update has been applied to them. -/
theorem drive_registers_cases (s : State) (done : Nat) (u : Update) (ws : List Write)
    (answers : List Answer) :
    ((∀ p, (s.drive done u ws answers).vco p = s.vco p) ∧
        ∀ c, (s.drive done u ws answers).p1hi c = s.p1hi c) ∨
      ((∀ p, (s.drive done u ws answers).vco p = (s.apply u).vco p) ∧
        ∀ c, (s.drive done u ws answers).p1hi c = (s.apply u).p1hi c) := by
  rcases drive_cases s done u ws answers with ⟨rest, -, heq⟩ | ⟨pre, w, post, rest, -, -, heq⟩ |
    ⟨pre, w, post, -, -, heq⟩ <;> rw [heq]
  · simp only [State.finish_vco, State.finish_p1hi]
    exact .inr (apply_wrote_registers s ws rest u)
  · exact .inl (by simp)
  · exact .inl ⟨fun p => by cases p <;> rfl, fun c => by cases c <;> rfl⟩

theorem drive_vco_cases (s : State) (done : Nat) (u : Update) (ws : List Write)
    (answers : List Answer) (p : Pll) :
    (s.drive done u ws answers).vco p = s.vco p ∨
      u = .recordVco p ((s.drive done u ws answers).vco p) := by
  rcases drive_registers_cases s done u ws answers with ⟨hsame, -⟩ | ⟨happly, -⟩
  · exact .inl (hsame p)
  · rw [happly]
    exact apply_vco_cases s u p

theorem drive_p1hi_cases (s : State) (done : Nat) (u : Update) (ws : List Write)
    (answers : List Answer) (c : Channel) :
    (s.drive done u ws answers).p1hi c = s.p1hi c ∨
      u = .recordP1hi c ((s.drive done u ws answers).p1hi c) := by
  rcases drive_registers_cases s done u ws answers with ⟨-, hsame⟩ | ⟨-, happly⟩
  · exact .inl (hsame c)
  · rw [happly]
    exact apply_p1hi_cases s u c

/-- An address that no write of the list names reads as before, however the run ends. -/
theorem read_bank_drive_of_not_mem (s : State) (done : Nat) (u : Update) {ws : List Write}
    (answers : List Answer) {a : Addr} (ha : a ∉ ws.map Write.addr) :
    (s.drive done u ws answers).bank.read a.toNat = s.bank.read a.toNat := by
  rcases drive_cases s done u ws answers with ⟨rest, -, heq⟩ | ⟨pre, w, post, rest, rfl, -, heq⟩ |
    ⟨pre, w, post, rfl, -, heq⟩ <;> rw [heq]
  · rw [State.finish_bank, State.apply_bank, State.wrote_bank, read_bankWith_of_ne ha]
  · simp only [List.map_append, List.map_cons, List.mem_append, List.mem_cons, not_or] at ha
    obtain ⟨hpre, hw, -⟩ := ha
    rw [State.finish_bank, State.memWrite_bank, State.wrote_bank,
      read_bankAfter_of_ne w .err _ fun h => hw (BitVec.eq_of_toNat_eq h), read_bankWith_of_ne hpre]
  · simp only [List.map_append, List.mem_append, not_or] at ha
    exact read_bankWith_of_ne ha.1 s.bank

end Sys2Proof.Machine
end

section
/-! The plans read backwards: which command plans an update, and at which addresses it writes (20_memory R42). -/

namespace Sys2Proof.Machine

theorem withChannel_eq_writes {ch : BitVec 2} {k : Channel → Planned} {pl : Plan}
    (h : withChannel ch k = .writes pl) : ∃ c, channelOf ch = some c ∧ k c = .writes pl := by
  rcases channelOf_cases ch with ⟨rfl, -⟩ | ⟨c, hc, -⟩
  · cases h
  · exact ⟨c, hc, by rwa [withChannel_some hc] at h⟩

theorem withDenom_eq_writes {denom : BitVec 20} {pl pl' : Plan}
    (h : withDenom denom (.writes pl) = .writes pl') : pl' = pl := by
  by_cases hd : denom = 0#20
  · subst hd; cases h
  · rw [withDenom_of_ne hd] at h
    exact (Planned.writes.inj h).symm

theorem withFreq_eq_writes {f : BitVec 32} {pl pl' : Plan}
    (h : withFreq f (.writes pl) = .writes pl') : pl' = pl := by
  by_cases hf : f = 0#32
  · subst hf; cases h
  · rw [withFreq_of_ne hf] at h
    exact (Planned.writes.inj h).symm

/-- What the plan of each command is when Validate lets it pass (60_exceptions R162). -/
theorem planOf_eq_writes_cases {i : Instr} {s : State} {pl : Plan} (h : planOf i s = .writes pl) :
    (∃ p mult num denom, i = .setupPll p mult num denom ∧ pl =
      { writes := pllWrites s.cfg p mult.toNat num.toNat denom.toNat
        update := .recordVco p
          (BitVec.ofNat 65 (vcoRecord s.xtal.toNat mult.toNat num.toNat denom.toNat)) }) ∨
    (∃ ch c p div num denom, i = .setupMs ch p div num denom ∧ channelOf ch = some c ∧
      pl = msPlan s.cfg c p div.toNat num.toNat denom.toNat) ∨
    (∃ ch c n, i = .setupRdiv ch n ∧ channelOf ch = some c ∧
      pl = { writes := [rdivWrite s.cfg c n (s.p1hi c)], update := .nothing }) ∨
    (∃ ch c p f, i = .setFreq ch p f ∧ channelOf ch = some c ∧
      pl = resolvedPlan s.cfg c p (resolve (s.vco p).toNat f.toNat)) ∨
    (∃ en, i = .enableOutputs en ∧
      pl = { writes := [⟨s.cfg.oeAddr, enableByte en⟩], update := .nothing }) := by
  cases i with
  | setupPll p mult num denom =>
    exact .inl ⟨p, mult, num, denom, rfl, withDenom_eq_writes h⟩
  | setupMs ch p div num denom =>
    obtain ⟨c, hc, hk⟩ := withChannel_eq_writes h
    exact .inr (.inl ⟨ch, c, p, div, num, denom, rfl, hc, withDenom_eq_writes hk⟩)
  | setupRdiv ch n =>
    obtain ⟨c, hc, hk⟩ := withChannel_eq_writes h
    exact .inr (.inr (.inl ⟨ch, c, n, rfl, hc, (Planned.writes.inj hk).symm⟩))
  | setFreq ch p f =>
    obtain ⟨c, hc, hk⟩ := withChannel_eq_writes h
    exact .inr (.inr (.inr (.inl ⟨ch, c, p, f, rfl, hc, withFreq_eq_writes hk⟩)))
  | enableOutputs en =>
    exact .inr (.inr (.inr (.inr ⟨en, rfl, (Planned.writes.inj h).symm⟩)))

/-- Only SETUP_PLL records a VCO frequency (10_state R24). -/
theorem setupPll_of_recordVco {i : Instr} {s : State} {pl : Plan} {p : Pll} {v : BitVec 65}
    (h : planOf i s = .writes pl) (hu : pl.update = .recordVco p v) :
    ∃ mult num denom, i = .setupPll p mult num denom := by
  rcases planOf_eq_writes_cases h with ⟨q, mult, num, denom, rfl, rfl⟩ |
    ⟨ch, c, q, div, num, denom, rfl, hc, rfl⟩ | ⟨ch, c, n, rfl, hc, rfl⟩ | ⟨ch, c, q, f, rfl, hc, rfl⟩ |
    ⟨en, rfl, rfl⟩
  · obtain ⟨rfl, -⟩ := Update.recordVco.inj hu
    exact ⟨mult, num, denom, rfl⟩
  all_goals cases hu

/-- Only SETUP_MS and SET_FREQ record a channel's P1HI (10_state R26). -/
theorem multisynth_of_recordP1hi {i : Instr} {s : State} {pl : Plan} {c : Channel} {v : BitVec 2}
    (h : planOf i s = .writes pl) (hu : pl.update = .recordP1hi c v) :
    ∃ ch, channelOf ch = some c ∧ ((∃ p div num denom, i = .setupMs ch p div num denom) ∨
      ∃ p f, i = .setFreq ch p f) := by
  rcases planOf_eq_writes_cases h with ⟨p, mult, num, denom, rfl, rfl⟩ |
    ⟨ch, d, p, div, num, denom, rfl, hc, rfl⟩ | ⟨ch, d, n, rfl, hc, rfl⟩ | ⟨ch, d, p, f, rfl, hc, rfl⟩ |
    ⟨en, rfl, rfl⟩
  case inr.inl =>
    obtain ⟨rfl, -⟩ := Update.recordP1hi.inj hu
    exact ⟨ch, hc, .inl ⟨p, div, num, denom, rfl⟩⟩
  case inr.inr.inr.inl =>
    obtain ⟨rfl, -⟩ := Update.recordP1hi.inj hu
    exact ⟨ch, hc, .inr ⟨p, f, rfl⟩⟩
  all_goals cases hu

/-- The R-divider's address as the table of 20_memory R42 gives it. -/
theorem rdivAddr_eq_of_channelOf {ch : BitVec 2} {c : Channel} (hc : channelOf ch = some c) :
    rdivAddr c = BitVec.ofNat 8 (44 + 8 * ch.toNat) := by
  rw [rdivAddr_of_channelOf hc, Nat.add_right_comm]

/-- The addresses of a plan are the command's row of the table of 20_memory R42. -/
theorem map_addr_of_planOf {i : Instr} {s : State} {pl : Plan} (h : planOf i s = .writes pl) :
    pl.writes.map Write.addr = addressesOf s.cfg i := by
  rcases planOf_eq_writes_cases h with ⟨p, mult, num, denom, rfl, rfl⟩ |
    ⟨ch, c, p, div, num, denom, rfl, hc, rfl⟩ | ⟨ch, c, n, rfl, hc, rfl⟩ | ⟨ch, c, p, f, rfl, hc, rfl⟩ |
    ⟨en, rfl, rfl⟩
  case inl =>
    rw [pllWrites, List.map_append, map_addr_blockWrites]
    cases p <;> rfl
  case inr.inl => simp [addressesOf, hc, msPlan, map_addr_blockWrites, msBase_of_channelOf hc]
  case inr.inr.inl => simp [addressesOf, hc, rdivWrite, rdivAddr_eq_of_channelOf hc]
  case inr.inr.inr.inl =>
    simp [addressesOf, hc, resolvedPlan_writes, msPlan, map_addr_blockWrites, msBase_of_channelOf hc,
      rdivWrite, rdivAddr_eq_of_channelOf hc]
  case inr.inr.inr.inr => rfl

end Sys2Proof.Machine
end

section
/-! What a command leaves unchanged, whether it completes or waits (10_state section 3), and the addresses it writes
(20_memory R42). -/

namespace Sys2Proof.Machine

theorem frame_exec {i : Instr} {s t : State} (h : exec i s = .next t) : s.Frame t := by
  rw [exec_eq_run] at h
  obtain rfl := Host.Outcome.next.inj h
  exact frame_run s (planOf i s)

/-- A run of a command changes a VCO register only for SETUP_PLL of it (10_state R24). -/
theorem run_vco_cases (i : Instr) (s : State) (p : Pll) :
    (s.run (planOf i s)).vco p = s.vco p ∨ ∃ mult num denom, i = .setupPll p mult num denom := by
  cases hp : planOf i s with
  | fault c => exact .inl (State.raise_vco ..)
  | writes pl =>
    exact (drive_vco_cases s 0 pl.update pl.writes s.bus p).imp_right (setupPll_of_recordVco hp)

/-- A run of a command changes a channel's P1HI only for SETUP_MS or SET_FREQ on it (10_state R26). -/
theorem run_p1hi_cases (i : Instr) (s : State) (c : Channel) :
    (s.run (planOf i s)).p1hi c = s.p1hi c ∨
      ∃ ch, channelOf ch = some c ∧ ((∃ p div num denom, i = .setupMs ch p div num denom) ∨
        ∃ p f, i = .setFreq ch p f) := by
  cases hp : planOf i s with
  | fault c => exact .inl (State.raise_p1hi ..)
  | writes pl =>
    exact (drive_p1hi_cases s 0 pl.update pl.writes s.bus c).imp_right (multisynth_of_recordP1hi hp)

theorem read_bank_run_of_not_mem (s : State) (P : Planned) {a : Addr}
    (ha : a ∉ (plannedWrites P).map Write.addr) :
    (s.run P).bank.read a.toNat = s.bank.read a.toNat := by
  cases P with
  | fault c => rfl
  | writes pl => exact read_bank_drive_of_not_mem s 0 pl.update s.bus ha

/-- Settles O35: the frame of the run of the command's plan. -/
theorem execFrame : Obligations.ExecFrame := by
  unfold Obligations.ExecFrame
  intro i s t h
  obtain ⟨hcfg, hxtal, hbusaddr, hport, houtside⟩ := frame_exec h
  rw [exec_eq_run] at h
  obtain rfl := Host.Outcome.next.inj h
  refine ⟨hcfg, hxtal, hbusaddr, hport, houtside, fun p hpll => ?vco, fun c hms hfreq => ?p1hi,
    fun a => read_bank_run_of_not_mem s (planOf i s)⟩
  case vco =>
    rcases run_vco_cases i s p with hsame | ⟨mult, num, denom, hi⟩
    · exact hsame
    · exact absurd hi (hpll mult num denom)
  case p1hi =>
    rcases run_p1hi_cases i s c with hsame | ⟨ch, hc, ⟨p, div, num, denom, hi⟩ | ⟨p, f, hi⟩⟩
    · exact hsame
    · exact absurd hi (hms ch p div num denom hc)
    · exact absurd hi (hfreq ch p f hc)

theorem statusCode_busError_ne (n : Nat) (a : Addr) :
    statusCode (statusWord .busError n a) ≠ 0#4 := by
  rw [statusCode_statusWord]
  decide

/-- Settles O36: what is written is a beginning of the plan's writes, whose addresses are the row. -/
theorem writesOnlyItsAddresses : Obligations.WritesOnlyItsAddresses := by
  unfold Obligations.WritesOnlyItsAddresses
  intro i s t h
  rcases exec_cases h with ⟨c, hp, rfl⟩ | ⟨pl, hp, hend⟩
  · have hill : i.wellFormed = false := (wellFormed_eq_false_iff i s).2 ⟨c, hp⟩
    exact ⟨[], (List.append_nil _).symm, by simp, fun _ => rfl, fun hwf => by simp [hill] at hwf⟩
  · have hwf : i.wellFormed = true := wellFormed_of_planOf hp
    rw [← map_addr_of_planOf hp]
    rcases hend with ⟨rest, -, rfl⟩ | ⟨pre, w, post, rest, hwrites, -, rfl⟩ |
      ⟨pre, w, post, hwrites, -, rfl⟩
    · refine ⟨okEntries s.busaddr pl.writes, by simp, ?_, by simp [hwf], ?_⟩ <;> simp
    · refine ⟨okEntries s.busaddr pre ++ [⟨s.busaddr, w.addr, w.data, .err⟩], by simp, ?_, by simp [hwf],
        fun _ _ hcode => absurd hcode (statusCode_busError_ne pre.length w.addr)⟩
      simp [hwrites]
    · refine ⟨okEntries s.busaddr pre, rfl, by simp [hwrites], by simp [hwf], fun _ hidle => ?_⟩
      cases hidle

end Sys2Proof.Machine
end

section
/-! What a plan depends on, and the command repeated (20_memory R50). -/

namespace Sys2Proof.Machine

/-- The low bits are those of P1HI only under `MS_LAYOUT` (43_rdiv R128). -/
theorem rdivWrite_congr {cfg : Config} {x y : BitVec 2} (h : cfg.rdivLowBits = .msLayout → x = y)
    (c : Channel) (n : BitVec 3) : rdivWrite cfg c n x = rdivWrite cfg c n y := by
  cases hlow : cfg.rdivLowBits with
  | msLayout => rw [h hlow]
  | zero => simp [rdivWrite, rdivLow, hlow]

/-- A plan reads the parameters, `XTAL`, `VCO[p]` for SET_FREQ and `P1HI[ch]` for SETUP_RDIV, and nothing else. -/
theorem planOf_congr {i : Instr} {s t : State} (hcfg : s.cfg = t.cfg) (hxtal : s.xtal = t.xtal)
    (hvco : ∀ ch p f, i = .setFreq ch p f → s.vco p = t.vco p)
    (hp1hi : ∀ ch c n, i = .setupRdiv ch n → channelOf ch = some c →
      s.cfg.rdivLowBits = .msLayout → s.p1hi c = t.p1hi c) :
    planOf i s = planOf i t := by
  cases i with
  | setupPll p mult num denom => simp only [planOf, planSetupPll, hcfg, hxtal]
  | setupMs ch p div num denom => simp only [planOf, planSetupMs, hcfg]
  | setupRdiv ch n =>
    rcases channelOf_cases ch with ⟨rfl, -⟩ | ⟨c, hc, -⟩
    · rfl
    · have hwrite := rdivWrite_congr (hp1hi ch c n rfl hc) c n
      rw [hcfg] at hwrite
      simp only [planOf, planSetupRdiv_of_legal hc, hcfg, hwrite]
  | setFreq ch p f => simp only [planOf, planSetFreq, hcfg, hvco ch p f rfl]
  | enableOutputs en => simp only [planOf, planEnableOutputs, hcfg]

/-- `XTAL` is in the update of SETUP_PLL only, not in its writes. -/
theorem plannedWrites_withXtal (i : Instr) (s : State) (x : BitVec 32) :
    plannedWrites (planOf i { s with xtal := x }) = plannedWrites (planOf i s) := by
  cases i with
  | setupPll p mult num denom =>
    by_cases hd : denom = 0#20
    · subst hd; rfl
    · rw [planOf_setupPll p mult num hd, planOf_setupPll p mult num hd]
      rfl
  | setupMs ch p div num denom => rfl
  | setupRdiv ch n => rfl
  | setFreq ch p f => rfl
  | enableOutputs en => rfl

/-- Settles O37: a command changes nothing of what its own plan reads. -/
theorem repeatedCommandWritesTheSame : Obligations.RepeatedCommandWritesTheSame := by
  unfold Obligations.RepeatedCommandWritesTheSame
  refine ⟨fun i s t hcfg hvco hp1hi => ?values, fun i s t h => ?repeated⟩
  case values =>
    rw [← plannedWrites_withXtal i s t.xtal]
    exact congrArg plannedWrites (planOf_congr hcfg rfl hvco hp1hi)
  case repeated =>
    obtain ⟨hcfg, hxtal, -, -, -⟩ := frame_exec h
    rw [exec_eq_run] at h
    obtain rfl := Host.Outcome.next.inj h
    refine planOf_congr hcfg hxtal ?_ ?_
    · rintro ch p f rfl
      exact (run_vco_cases _ s p).resolve_right (by simp)
    · rintro ch c n rfl - -
      exact (run_p1hi_cases _ s c).resolve_right (by simp)

end Sys2Proof.Machine
end

section
/-! Waiting for the bank's answers (20_memory R44, R52): a command that waits stays as it is, and goes on as if its
answers had been there at once. -/

namespace Sys2Proof.Machine

/-- A run reads its answers from the list it is given and sets MODE itself: it reads neither the state's own answers
nor its MODE. -/
theorem drive_withBusMode (s : State) (b : List Answer) (m : Mode) (done : Nat) (u : Update)
    (ws : List Write) (answers : List Answer) :
    ({ s with bus := b, mode := m } : State).drive done u ws answers = s.drive done u ws answers := by
  induction ws generalizing s done answers with
  | nil =>
    cases u with
    | nothing => rfl
    | recordVco p v => cases p <;> rfl
    | recordP1hi c v => cases c <;> rfl
  | cons w ws ih =>
    cases answers with
    | nil => rfl
    | cons x answers =>
      cases x with
      | ok => exact ih (s.memWrite w .ok) (done + 1) answers
      | err => rfl

/-- The completion leaves later answers in the list. -/
theorem finish_apply_withBus (s : State) (u : Update) (n : Nat) (as bs : List Answer) :
    (({ s with bus := as ++ bs } : State).apply u).finish .ok n 0#8 =
      { (({ s with bus := as } : State).apply u).finish .ok n 0#8 with bus := as ++ bs } := by
  cases u with
  | nothing => rfl
  | recordVco p v => cases p <;> rfl
  | recordP1hi c v => cases c <;> rfl

/-- Where the first answers end the command, the later ones are left over. -/
theorem drive_append_of_idle {s : State} {done : Nat} {u : Update} {ws : List Write}
    {xs : List Answer} (h : (s.drive done u ws xs).mode = .idle) (ys : List Answer) :
    s.drive done u ws (xs ++ ys) =
      { s.drive done u ws xs with bus := (s.drive done u ws xs).bus ++ ys } := by
  induction ws generalizing s done xs with
  | nil =>
    have hbus : (s.drive done u [] xs).bus = xs := by simp [State.drive]
    rw [hbus]
    exact finish_apply_withBus s u done xs ys
  | cons w ws ih =>
    cases xs with
    | nil => cases h
    | cons x xs =>
      cases x with
      | ok => exact ih h
      | err => rfl

/-- Where the first answers leave the command waiting, the later ones go on with it. -/
theorem drive_append_of_busy {s : State} {done : Nat} {u : Update} {ws : List Write}
    {xs : List Answer} {f : Flight} (h : (s.drive done u ws xs).mode = .busy f) (ys : List Answer) :
    s.drive done u ws (xs ++ ys) =
      ({ s.drive done u ws xs with bus := ys } : State).resume f := by
  induction ws generalizing s done xs with
  | nil => simp [State.drive] at h
  | cons w ws ih =>
    cases xs with
    | nil =>
      obtain rfl := Mode.busy.inj h
      exact (drive_withBusMode s ys _ done u (w :: ws) ys).symm
    | cons x xs =>
      cases x with
      | ok => exact ih h
      | err => cases h

/-- No plan reads the answers. -/
theorem planOf_withBus (i : Instr) (s : State) (b : List Answer) :
    planOf i { s with bus := b } = planOf i s := by
  refine planOf_congr rfl rfl (fun _ p _ _ => ?_) (fun _ c _ _ _ _ => ?_)
  · cases p <;> rfl
  · cases c <;> rfl

theorem run_writes_withBus (s : State) (b : List Answer) (pl : Plan) :
    ({ s with bus := b } : State).run (.writes pl) = s.drive 0 pl.update pl.writes b :=
  drive_withBusMode s b s.mode 0 pl.update pl.writes b

theorem run_append_of_idle {s t : State} {P : Planned} {xs : List Answer}
    (ht : ({ s with bus := xs } : State).run P = t) (h : t.mode = .idle) (ys : List Answer) :
    ({ s with bus := xs ++ ys } : State).run P = { t with bus := t.bus ++ ys } := by
  subst ht
  cases P with
  | fault c => rfl
  | writes pl =>
    rw [run_writes_withBus] at h ⊢
    rw [run_writes_withBus]
    exact drive_append_of_idle h ys

theorem run_append_of_busy {s t : State} {P : Planned} {xs : List Answer} {f : Flight}
    (ht : ({ s with bus := xs } : State).run P = t) (h : t.mode = .busy f) (ys : List Answer) :
    ({ s with bus := xs ++ ys } : State).run P = ({ t with bus := ys } : State).resume f := by
  subst ht
  cases P with
  | fault c => cases h
  | writes pl =>
    rw [run_writes_withBus] at h ⊢
    rw [run_writes_withBus]
    exact drive_append_of_busy h ys

/-- Settles O40: by whether the first part of the answers leaves the command waiting. -/
theorem answerArrivalDoesNotMatter : Obligations.AnswerArrivalDoesNotMatter := by
  unfold Obligations.AnswerArrivalDoesNotMatter
  intro i s xs ys t hc ho h
  obtain ⟨hcfg, -, -, -, houtside⟩ := frame_exec h
  rw [exec_eq_run, planOf_withBus] at h
  have ht := Host.Outcome.next.inj h
  rw [exec_eq_run, planOf_withBus]
  split
  case h_1 f hbusy =>
    rw [run_append_of_busy ht hbusy]
    have hlegal : t.cfg.legal = true := by rw [hcfg, hc]
    exact (step_of_busy (s := { t with bus := ys }) hlegal (houtside.trans ho) hbusy).symm
  case h_2 hidle => rw [run_append_of_idle ht hidle]

/-- Settles O39: the run stops at the unanswered write, and going on without an answer stops there again. -/
theorem busyWaitsForTheAnswer : Obligations.BusyWaitsForTheAnswer := by
  unfold Obligations.BusyWaitsForTheAnswer
  intro i s pl pre w post hplan hwrites hbus
  refine ⟨?waits, fun hc ho => ?stays⟩
  case waits =>
    rw [exec_eq_run, hplan, State.run, hwrites, hbus, drive_waits, Nat.zero_add, State.waiting]
  case stays =>
    rw [step_of_busy (s := s.waiting pre (w :: post) pl.update) hc ho (State.waiting_mode ..)]
    rfl

end Sys2Proof.Machine
end

section
/-! Single steps (60_exceptions R162, R170): what each choice of the step does, when it goes on, and when it is refused
(30_encoding R69, 20_memory R57). -/

namespace Sys2Proof.Machine

/-! ### What arrives from outside (log 7) -/

section
variable {s : State} {os : List Outside} (hc : s.cfg.legal = true)
include hc

theorem step_of_legal_reset {cfg : Config} (ho : s.outside = .reset cfg :: os) (h : cfg.legal = true) :
    step s = .next (({ s with outside := os } : State).constructDevice cfg) := by
  rw [step_of_outside hc ho]
  simp [State.outsideStep, h]

theorem step_of_illegal_reset {cfg : Config} (ho : s.outside = .reset cfg :: os)
    (h : cfg.legal = false) : step s = .refused .illegalConfiguration := by
  rw [step_of_outside hc ho]
  simp [State.outsideStep, h]

theorem step_of_foreignWrite_idle (ho : s.outside = .foreignWrite :: os) (h : s.mode = .idle) :
    step s = .next { s with outside := os } := by
  rw [step_of_outside hc ho]
  simp [State.outsideStep, h]

theorem step_of_foreignWrite_busy {f : Flight} (ho : s.outside = .foreignWrite :: os)
    (h : s.mode = .busy f) : step s = .refused .interleavedWrite := by
  rw [step_of_outside hc ho]
  simp [State.outsideStep, h]

end

/-- Settles O19: whatever the mode, the reset is looked at first. -/
theorem resetDuringCommand : Obligations.ResetDuringCommand := by
  unfold Obligations.ResetDuringCommand
  intro s cfg os hc hcfg ho
  rw [step_of_legal_reset hc ho hcfg, State.constructDevice]

/-- Settles O47: the event goes, and the block is as it was. -/
theorem foreignWriteInIdle : Obligations.ForeignWriteInIdle := by
  unfold Obligations.ForeignWriteInIdle
  intro s os hc hm ho
  exact step_of_foreignWrite_idle hc ho hm

/-- Settles O38: the step takes the word, and a word that decodes is run. -/
theorem stepRunsTheDecodedCommand : Obligations.StepRunsTheDecodedCommand := by
  unfold Obligations.StepRunsTheDecodedCommand
  intro s w ws i hready hport hdecode
  rw [step_of_word hready hport, State.takeWord, hdecode]

/-! ### When a step goes on -/

theorem takeWord_goes_on (s : State) (w : CmdWord) : ∃ t, s.takeWord w = .next t := by
  cases hd : decode w with
  | illegal why => exact ⟨_, takeWord_of_illegal s hd⟩
  | command i =>
    rw [State.takeWord, hd]
    exact ⟨_, exec_eq_run i s⟩

/-- With nothing from outside a step goes on: no word and no answer stops it. -/
theorem step_goes_on {s : State} (hc : s.cfg.legal = true) (ho : s.outside = []) :
    ∃ t, step s = .next t := by
  cases hm : s.mode with
  | busy f => exact ⟨_, step_of_busy hc ho hm⟩
  | idle =>
    cases hp : s.port with
    | nil => exact ⟨_, step_of_nothing ⟨hc, ho, hm⟩ hp⟩
    | cons w ws =>
      rw [step_of_word ⟨hc, ho, hm⟩ hp]
      exact takeWord_goes_on _ w

/-- Settles O46: by the configuration in force, then by what has arrived first from outside. -/
theorem stepGoesOnUnlessRefused : Obligations.StepGoesOnUnlessRefused := by
  unfold Obligations.StepGoesOnUnlessRefused
  intro s
  cases hc : s.cfg.legal with
  | false => simp [step_of_illegal_cfg hc]
  | true =>
    cases ho : s.outside with
    | nil =>
      obtain ⟨t, ht⟩ := step_goes_on hc ho
      simp [ht]
    | cons o os =>
      cases o with
      | reset cfg =>
        cases hl : cfg.legal with
        | false => simp [step_of_illegal_reset hc ho hl, hl]
        | true => simp [step_of_legal_reset hc ho hl, hl]
      | foreignWrite =>
        cases hm : s.mode with
        | busy f => simp [step_of_foreignWrite_busy hc ho hm]
        | idle => simp [step_of_foreignWrite_idle hc ho hm]

end Sys2Proof.Machine
end

section
/-! What a step leaves as it was (10_state R23, R24, R26), how it serves the port (60_exceptions R170), and what it adds
to the log (20_memory R44, R52). -/

namespace Sys2Proof.Machine

/-- Settles O41: only the two steps that take a word change the port, and they take its first. -/
theorem portIsServedInOrderInIdle : Obligations.PortIsServedInOrderInIdle := by
  unfold Obligations.PortIsServedInOrderInIdle
  intro s t h
  obtain ⟨-, ⟨cfg, os, -, -, rfl⟩ | ⟨os, -, -, rfl⟩ | ⟨f, -, -, rfl⟩ | ⟨-, -, -, rfl⟩ |
    ⟨w, ws, why, ho, hm, hp, -, rfl⟩ | ⟨w, ws, i, ho, hm, hp, -, rfl⟩⟩ := step_cases h
  · exact .inl rfl
  · exact .inl rfl
  · exact .inl (frame_resume s f).port
  · exact .inl rfl
  · exact .inr ⟨hm, ho, w, hp⟩
  · exact .inr ⟨hm, ho, w, by rw [hp, (frame_run _ _).port]⟩

/-- Settles O43: a reset sets them, and no run touches them. -/
theorem xtalAndBusaddrAreFixed : Obligations.XtalAndBusaddrAreFixed := by
  unfold Obligations.XtalAndBusaddrAreFixed
  intro s t h
  obtain ⟨-, ⟨cfg, os, ho, -, rfl⟩ | ⟨os, -, -, rfl⟩ | ⟨f, -, -, rfl⟩ | ⟨-, -, -, rfl⟩ |
    ⟨w, ws, why, -, -, -, -, rfl⟩ | ⟨w, ws, i, -, -, -, -, rfl⟩⟩ := step_cases h
  · exact .inr ⟨cfg, os, ho, rfl, rfl, rfl⟩
  · exact .inl ⟨rfl, rfl, rfl⟩
  · obtain ⟨hcfg, hxtal, hbusaddr, -, -⟩ := frame_resume s f
    exact .inl ⟨hxtal, hbusaddr, hcfg⟩
  · exact .inl ⟨rfl, rfl, rfl⟩
  · exact .inl ⟨rfl, rfl, rfl⟩
  · obtain ⟨hcfg, hxtal, hbusaddr, -, -⟩ := frame_run { s with port := ws } (planOf i _)
    exact .inl ⟨hxtal, hbusaddr, hcfg⟩

theorem vco_eq_of_vcoA_vcoB {s t : State} (ha : t.vcoA = s.vcoA) (hb : t.vcoB = s.vcoB) (p : Pll) :
    t.vco p = s.vco p := by
  cases p
  · exact ha
  · exact hb

theorem p1hi_eq_of_channels {s t : State} (h0 : t.p1hi0 = s.p1hi0) (h1 : t.p1hi1 = s.p1hi1)
    (h2 : t.p1hi2 = s.p1hi2) (c : Channel) : t.p1hi c = s.p1hi c := by
  cases c
  · exact h0
  · exact h1
  · exact h2

/-- Settles O44: a run that changes the register has it in its update, and only SETUP_PLL plans such an update. -/
theorem onlySetupPllChangesVco : Obligations.OnlySetupPllChangesVco := by
  unfold Obligations.OnlySetupPllChangesVco
  intro s t p h hne
  obtain ⟨-, ⟨cfg, os, ho, -, rfl⟩ | ⟨os, -, -, rfl⟩ | ⟨f, -, hm, rfl⟩ | ⟨-, -, -, rfl⟩ |
    ⟨w, ws, why, -, -, -, -, rfl⟩ | ⟨w, ws, i, -, hm, hp, hd, rfl⟩⟩ := step_cases h
  · exact .inl ⟨cfg, os, ho⟩
  · exact absurd (vco_eq_of_vcoA_vcoB rfl rfl p) hne
  · have hupdate := (drive_vco_cases s f.done f.update f.rest s.bus p).resolve_left hne
    exact .inr (.inl ⟨f, _, hm, hupdate, rfl⟩)
  · exact absurd rfl hne
  · exact absurd (vco_eq_of_vcoA_vcoB rfl rfl p) hne
  · have hport : ({ s with port := ws } : State).vco p = s.vco p := vco_eq_of_vcoA_vcoB rfl rfl p
    rw [← hport] at hne
    obtain ⟨mult, num, denom, rfl⟩ := (run_vco_cases i _ p).resolve_left hne
    exact .inr (.inr ⟨hm, w, ws, mult, num, denom, hp, hd⟩)

/-- Settles O45: as for the VCO registers, with the two commands that plan such an update. -/
theorem onlyMultisynthWritesChangeP1hi : Obligations.OnlyMultisynthWritesChangeP1hi := by
  unfold Obligations.OnlyMultisynthWritesChangeP1hi
  intro s t c h hne
  obtain ⟨-, ⟨cfg, os, ho, -, rfl⟩ | ⟨os, -, -, rfl⟩ | ⟨f, -, hm, rfl⟩ | ⟨-, -, -, rfl⟩ |
    ⟨w, ws, why, -, -, -, -, rfl⟩ | ⟨w, ws, i, -, hm, hp, hd, rfl⟩⟩ := step_cases h
  · exact .inl ⟨cfg, os, ho⟩
  · exact absurd (p1hi_eq_of_channels rfl rfl rfl c) hne
  · have hupdate := (drive_p1hi_cases s f.done f.update f.rest s.bus c).resolve_left hne
    exact .inr (.inl ⟨f, _, hm, hupdate, rfl⟩)
  · exact absurd rfl hne
  · exact absurd (p1hi_eq_of_channels rfl rfl rfl c) hne
  · have hport : ({ s with port := ws } : State).p1hi c = s.p1hi c := p1hi_eq_of_channels rfl rfl rfl c
    rw [← hport] at hne
    obtain ⟨ch, hc, hi⟩ := (run_p1hi_cases i _ c).resolve_left hne
    refine .inr (.inr ⟨hm, w, ws, ch, hp, hc, ?_⟩)
    rcases hi with ⟨p, div, num, denom, rfl⟩ | ⟨p, f, rfl⟩
    · exact .inl ⟨p, div, num, denom, hd⟩
    · exact .inr ⟨p, f, hd⟩

/-- A run of a write list adds an entry per answered write to the log, with the answers from the front of the list it
is given. -/
theorem drive_log (s : State) (done : Nat) (u : Update) (ws : List Write) (answers : List Answer) :
    ∃ es, (s.drive done u ws answers).log = s.log ++ es ∧ (∀ e ∈ es, e.dev = s.busaddr) ∧
      answers = es.map LogEntry.answer ++ (s.drive done u ws answers).bus ∧ es.length ≤ ws.length := by
  rcases drive_cases s done u ws answers with ⟨rest, hanswers, heq⟩ |
    ⟨pre, w, post, rest, rfl, hanswers, heq⟩ | ⟨pre, w, post, rfl, hanswers, heq⟩ <;> rw [heq]
  · exact ⟨okEntries s.busaddr ws, by simp, fun _ => dev_of_mem_okEntries, by simp [hanswers], by simp⟩
  · refine ⟨okEntries s.busaddr pre ++ [⟨s.busaddr, w.addr, w.data, .err⟩], by simp, fun e he => ?_,
      by simp [hanswers], by simp⟩
    rw [List.mem_append, List.mem_singleton] at he
    rcases he with he | rfl
    · exact dev_of_mem_okEntries he
    · rfl
  · exact ⟨okEntries s.busaddr pre, by simp, fun _ => dev_of_mem_okEntries, by simp [hanswers], by simp⟩

/-- A run of a command consumes at most ten answers, one for each entry it adds to the log. -/
theorem run_log (s : State) (i : Instr) :
    ∃ es, (s.run (planOf i s)).log = s.log ++ es ∧ (∀ e ∈ es, e.dev = s.busaddr) ∧
      s.bus = es.map LogEntry.answer ++ (s.run (planOf i s)).bus ∧ es.length ≤ 10 := by
  rcases planOf_cases i s with hp | hp | ⟨pl, hp, -, hlen⟩ <;> rw [hp]
  · exact ⟨[], by simp [State.run], by simp, rfl, by simp⟩
  · exact ⟨[], by simp [State.run], by simp, rfl, by simp⟩
  · obtain ⟨es, hlog, hdev, hbus, hle⟩ := drive_log s 0 pl.update pl.writes s.bus
    exact ⟨es, hlog, hdev, hbus, hle.trans hlen⟩

/-- Settles O42: a step that runs no write list adds nothing. -/
theorem logGrowsByAnsweredWrites : Obligations.LogGrowsByAnsweredWrites := by
  unfold Obligations.LogGrowsByAnsweredWrites
  intro s t h
  have hnothing : ∀ u : State, u.log = s.log → u.bus = s.bus → ∃ es, u.log = s.log ++ es ∧
      (∀ e ∈ es, e.dev = s.busaddr) ∧ s.bus = es.map LogEntry.answer ++ u.bus :=
    fun u hlog hbus => ⟨[], by simp [hlog], by simp, by simp [hbus]⟩
  obtain ⟨-, ⟨cfg, os, -, -, rfl⟩ | ⟨os, -, -, rfl⟩ | ⟨f, -, -, rfl⟩ | ⟨-, -, -, rfl⟩ |
    ⟨w, ws, why, -, -, -, -, rfl⟩ | ⟨w, ws, i, -, -, -, -, rfl⟩⟩ := step_cases h
  · exact hnothing _ rfl rfl
  · exact hnothing _ rfl rfl
  · obtain ⟨es, hlog, hdev, hbus, -⟩ := drive_log s f.done f.update f.rest s.bus
    exact ⟨es, hlog, hdev, hbus⟩
  · exact hnothing _ rfl rfl
  · exact hnothing _ rfl rfl
  · obtain ⟨es, hlog, hdev, hbus, -⟩ := run_log { s with port := ws } i
    exact ⟨es, hlog, hdev, hbus⟩

end Sys2Proof.Machine
end

section
/-! Commands and lists of commands run to their end, with answers enough (60_exceptions R171, 70_reset R186). -/

namespace Sys2Proof.Machine

/-- With an answer for every write a run ends and returns its completion word. -/
theorem drive_completes (s : State) (done : Nat) (u : Update) {ws : List Write} {answers : List Answer}
    (h : ws.length ≤ answers.length) :
    (s.drive done u ws answers).mode = .idle ∧
      (s.drive done u ws answers).responses = s.responses ++ [(s.drive done u ws answers).status] := by
  rcases drive_cases s done u ws answers with ⟨rest, -, heq⟩ | ⟨pre, w, post, rest, -, -, heq⟩ |
    ⟨pre, w, post, rfl, rfl, -⟩
  · rw [heq]
    simp
  · rw [heq]
    simp
  · simp at h

/-- No plan has more than ten writes (10_state R27). -/
theorem run_completes {s : State} (i : Instr) (h : 10 ≤ s.bus.length) :
    (s.run (planOf i s)).mode = .idle ∧
      (s.run (planOf i s)).responses = s.responses ++ [(s.run (planOf i s)).status] := by
  rcases planOf_cases i s with hp | hp | ⟨pl, hp, -, hlen⟩ <;> rw [hp]
  · exact ⟨rfl, rfl⟩
  · exact ⟨rfl, rfl⟩
  · exact drive_completes s 0 pl.update (hlen.trans h)

theorem length_bus_run (s : State) (i : Instr) :
    s.bus.length ≤ (s.run (planOf i s)).bus.length + 10 := by
  obtain ⟨es, -, -, hbus, hlen⟩ := run_log s i
  have hcount := congrArg List.length hbus
  rw [List.length_append, List.length_map] at hcount
  omega

/-- A word taken with ten answers there completes, whatever it is, and leaves all but ten of the answers. -/
theorem takeWord_completes {s : State} (w : CmdWord) (h : 10 ≤ s.bus.length) :
    ∃ t, s.takeWord w = .next t ∧ s.Frame t ∧ t.mode = .idle ∧
      t.responses = s.responses ++ [t.status] ∧ s.bus.length ≤ t.bus.length + 10 := by
  cases hd : decode w with
  | illegal why =>
    exact ⟨_, takeWord_of_illegal s hd, ⟨rfl, rfl, rfl, rfl, rfl⟩, rfl, rfl, Nat.le_add_right ..⟩
  | command i =>
    obtain ⟨hidle, hresponses⟩ := run_completes i h
    refine ⟨_, ?_, frame_run s (planOf i s), hidle, hresponses, length_bus_run s i⟩
    rw [State.takeWord, hd]
    exact exec_eq_run i s

/-- With ten answers there, a ready block completes the first word in one step and is ready for the next. -/
theorem step_completes_word {s : State} {w : CmdWord} {ws : List CmdWord} (hready : s.ready)
    (hport : s.port = w :: ws) (h : 10 ≤ s.bus.length) :
    ∃ t, step s = .next t ∧ t.ready ∧ t.port = ws ∧ t.responses = s.responses ++ [t.status] ∧
      s.bus.length ≤ t.bus.length + 10 := by
  obtain ⟨t, ht, ⟨hcfg, -, -, htport, houtside⟩, hidle, hresponses, hleft⟩ :=
    takeWord_completes (s := { s with port := ws }) w h
  have hstep : step s = .next t := (step_of_word hready hport).trans ht
  obtain ⟨hc, ho, -⟩ := hready
  exact ⟨t, hstep, ⟨by rw [hcfg, hc], houtside.trans ho, hidle⟩, htport,
    hresponses, hleft⟩

/-- Settles O49: a command from the port has at most ten writes, the one in progress those that are left. -/
theorem answeredCommandCompletes : Obligations.AnsweredCommandCompletes := by
  unfold Obligations.AnsweredCommandCompletes
  refine ⟨fun s w ws hready hport hbus => ?word, fun s f hc ho hm hbus => ?inProgress⟩
  case word =>
    obtain ⟨t, ht, ⟨-, -, hidle⟩, htport, hresponses, -⟩ := step_completes_word hready hport hbus
    exact ⟨t, ht, hidle, htport, hresponses⟩
  case inProgress =>
    obtain ⟨hidle, hresponses⟩ := drive_completes s f.done f.update hbus
    exact ⟨_, step_of_busy hc ho hm, hidle, (frame_resume s f).port, hresponses⟩

theorem core_run_succ {s t : State} (h : step s = .next t) (n : Nat) :
    Host.Core.run core (n + 1) s = Host.Core.run core n t := by
  have hstep : core.step s = .next t := h
  simp only [Host.Core.run, hstep]

/-- Settles O50: by induction on the waiting words; each step uses ten of the answers at most. -/
theorem commandListRunsToItsEnd : Obligations.CommandListRunsToItsEnd := by
  unfold Obligations.CommandListRunsToItsEnd
  intro s hready hbus
  induction hport : s.port generalizing s with
  | nil =>
    obtain ⟨-, -, hidle⟩ := hready
    exact ⟨s, rfl, ⟨hidle, hport⟩, rfl⟩
  | cons w ws ih =>
    rw [hport, List.length_cons] at hbus
    obtain ⟨t, ht, htready, htport, hresponses, hleft⟩ :=
      step_completes_word hready hport (by omega)
    have htbus : 10 * t.port.length ≤ t.bus.length := by
      rw [htport]
      omega
    obtain ⟨v, hrun, hended, hcount⟩ := ih t htready htbus htport
    refine ⟨v, (core_run_succ ht ws.length).trans hrun, hended, ?_⟩
    rw [hcount, hresponses, List.length_append, List.length_singleton, List.length_cons]
    omega

end Sys2Proof.Machine
end

section
/-! The assembler's operands (30_encoding R74, R75). -/

namespace Sys2Proof.Machine

/-- An operand is checked against its field, and the line is an error as soon as one does not fit. -/
theorem whenFits_fit_bind (width n : Nat) (k : BitVec width → Option Instr) :
    whenFits (fit width n >>= k) =
      if n < 2 ^ width then whenFits (k (BitVec.ofNat width n)) else .error .doesNotFit := by
  by_cases h : n < 2 ^ width <;> simp [fit, whenFits, h]

@[simp] theorem whenFits_pure (i : Instr) : whenFits (pure i) = .command i := rfl

/-- Settles O51: the numbers 0 and 1 fit the fields of the fraction. -/
theorem pseudoInstructions : Obligations.PseudoInstructions := by
  unfold Obligations.PseudoInstructions
  exact ⟨fun p m => rfl, fun ch p v => rfl⟩

/-- The enable flag is one bit (30_encoding R62). -/
theorem ofNat_one_beq_one {e : Nat} (h : e < 2) : (BitVec.ofNat 1 e == 1#1) = decide (e = 1) := by
  obtain rfl | rfl : e = 0 ∨ e = 1 := by omega
  · rfl
  · rfl

/-- Settles O52: the operands are checked one after the other. -/
theorem assemblerSyntax : Obligations.AssemblerSyntax := by
  unfold Obligations.AssemblerSyntax
  refine ⟨fun p m n d => ?pll, fun ch p v n d => ?ms, fun ch n => ?rdiv, fun ch p f => ?freq,
    fun e => ?enable⟩
  case pll | ms | rdiv | freq =>
    simp only [assembleOperands, whenFits_fit_bind, whenFits_pure, ite_and, Nat.reducePow]
  case enable =>
    simp only [assembleOperands, whenFits_fit_bind, whenFits_pure, pow_one]
    by_cases h : e < 2
    · rw [if_pos h, if_pos h, ofNat_one_beq_one h]
    · rw [if_neg h, if_neg h]

end Sys2Proof.Machine
end
